-- ==== Sys2Proof/Word.lean ====
section
/-! DEFINITION. The word types of the CORE (00_scope.md R6, R8, R9) and the narrowing of an exact
integer to 8 or 16 bits (00_scope.md R10). -/

namespace Sys2Proof

/-- An 8-bit cell: a V register, a timer, a byte of MEM, the immediate nn. -/
abbrev Byte := BitVec 8

/-- A 16-bit value: I, pc, a stack entry, an opcode word, a STATUS fault field. -/
abbrev Word := BitVec 16

/-- The 12-bit immediate nnn (R9). -/
abbrev Imm12 := BitVec 12

/-- The 4-bit immediate n, the height of a sprite in rows (R75). -/
abbrev Imm4 := BitVec 4

/-- The number of a V register, 0x0-0xF (10_state.md R21). -/
abbrev Reg := Fin 16

/-- The number of a key, 0x0-0xF (10_state.md R32, 60_exceptions.md R235). -/
abbrev Key := Fin 16

/-- `low8(v)` of R10: the exact integer modulo 256. -/
abbrev low8 (v : Nat) : Byte := BitVec.ofNat 8 v

/-- A write to a 16-bit register keeps the value modulo 2^16 (R10). -/
abbrev low16 (v : Nat) : Word := BitVec.ofNat 16 v

end Sys2Proof
end

