-- ==== Sys2Proof/Config.lean ====
section
/-! DEFINITION. What is fixed for the machine: the parameters the spec settles (00_scope.md R6), and
the values it leaves open (00_scope.md R7) as constants without a body, of which nothing can be
proved. -/

namespace Sys2Proof.Config

/-- MEM_SIZE of R6: addresses 0x000-0xFFF. -/
@[simp] abbrev memSize : Nat := 4096

/-- FONT_SIZE of R6: the font is at 0x000-0x04F (FONT_BASE is 0). -/
@[simp] abbrev fontSize : Nat := 80

/-- PROG_BASE of R6, also the pc after LOAD. -/
@[simp] abbrev progBase : Nat := 0x200

/-- PROG_MAX of R6: 4096 - 0x200. -/
@[simp] abbrev progMax : Nat := 3584

/-- FONT of R7: the byte of the built-in glyph font at an address below 0x050.
A free value (log 1): the spec does not give the repository's bytes (92_eei_decisions.md D20). -/
opaque font : Nat → Byte

/-- RNG of R7: the random byte of the `n`-th free draw (60_exceptions.md R241).
A free value (log 2). -/
opaque randomByte : Nat → Byte

/-- The default of FONT in 92_eei_decisions.md D20, which the spec marks as general knowledge.
The machine does not use it: a claim about it takes "`font` agrees with `defaultFont`" as a premise. -/
def defaultFont : List Byte :=
  [0xF0, 0x90, 0x90, 0x90, 0xF0,  0x20, 0x60, 0x20, 0x20, 0x70] ++
  [0xF0, 0x10, 0xF0, 0x80, 0xF0,  0xF0, 0x10, 0xF0, 0x10, 0xF0] ++
  [0x90, 0x90, 0xF0, 0x10, 0x10,  0xF0, 0x80, 0xF0, 0x10, 0xF0] ++
  [0xF0, 0x80, 0xF0, 0x90, 0xF0,  0xF0, 0x10, 0x20, 0x40, 0x40] ++
  [0xF0, 0x90, 0xF0, 0x90, 0xF0,  0xF0, 0x90, 0xF0, 0x10, 0xF0] ++
  [0xF0, 0x90, 0xF0, 0x90, 0x90,  0xE0, 0x90, 0xE0, 0x90, 0xE0] ++
  [0xF0, 0x80, 0x80, 0x80, 0xF0,  0xE0, 0x90, 0x90, 0x90, 0xE0] ++
  [0xF0, 0x80, 0xF0, 0x80, 0xF0,  0xF0, 0x80, 0xF0, 0x80, 0x80]

/-- `font` is the default font of D20. -/
def FontIsDefault : Prop := ∀ a < fontSize, some (font a) = defaultFont[a]?

end Sys2Proof.Config
end

