-- ==== Sys2Proof/Syntax.lean ====
section
/-! DEFINITION. The instructions: one constructor for each of the 34 rows of the opcode map
(30_encoding.md R76, spec/opcode_table.json), in the table's order, with the fields the row's
pattern has (30_encoding.md R71, R75). -/

namespace Sys2Proof

inductive Instr where
  /-- 00E0 CLS -/
  | cls
  /-- 00EE RET -/
  | ret
  /-- 1nnn JP nnn -/
  | jp (nnn : Imm12)
  /-- 2nnn CALL nnn -/
  | call (nnn : Imm12)
  /-- 3xnn SE Vx, nn -/
  | seImm (x : Reg) (nn : Byte)
  /-- 4xnn SNE Vx, nn -/
  | sneImm (x : Reg) (nn : Byte)
  /-- 5xy0 SE Vx, Vy -/
  | seReg (x y : Reg)
  /-- 6xnn LD Vx, nn -/
  | ldImm (x : Reg) (nn : Byte)
  /-- 7xnn ADD Vx, nn -/
  | addImm (x : Reg) (nn : Byte)
  /-- 8xy0 LD Vx, Vy -/
  | ldReg (x y : Reg)
  /-- 8xy1 OR Vx, Vy -/
  | orReg (x y : Reg)
  /-- 8xy2 AND Vx, Vy -/
  | andReg (x y : Reg)
  /-- 8xy3 XOR Vx, Vy -/
  | xorReg (x y : Reg)
  /-- 8xy4 ADD Vx, Vy -/
  | addReg (x y : Reg)
  /-- 8xy5 SUB Vx, Vy -/
  | subReg (x y : Reg)
  /-- 8xy6 SHR Vx; the y field is part of the word and has no effect (41_alu.md R128) -/
  | shr (x y : Reg)
  /-- 8xy7 SUBN Vx, Vy -/
  | subnReg (x y : Reg)
  /-- 8xyE SHL Vx; the y field is part of the word and has no effect (41_alu.md R130) -/
  | shl (x y : Reg)
  /-- 9xy0 SNE Vx, Vy -/
  | sneReg (x y : Reg)
  /-- Annn LD I, nnn -/
  | ldI (nnn : Imm12)
  /-- Bnnn JP V0, nnn -/
  | jpV0 (nnn : Imm12)
  /-- Cxnn RND Vx, nn -/
  | rnd (x : Reg) (nn : Byte)
  /-- Dxyn DRW Vx, Vy, n -/
  | drw (x y : Reg) (n : Imm4)
  /-- Ex9E SKP Vx -/
  | skp (x : Reg)
  /-- ExA1 SKNP Vx -/
  | sknp (x : Reg)
  /-- Fx07 LD Vx, DT -/
  | ldVxDT (x : Reg)
  /-- Fx0A LD Vx, K -/
  | ldVxK (x : Reg)
  /-- Fx15 LD DT, Vx -/
  | ldDTVx (x : Reg)
  /-- Fx18 LD ST, Vx -/
  | ldSTVx (x : Reg)
  /-- Fx1E ADD I, Vx -/
  | addI (x : Reg)
  /-- Fx29 LD F, Vx -/
  | ldF (x : Reg)
  /-- Fx33 LD B, Vx -/
  | ldB (x : Reg)
  /-- Fx55 LD [I], Vx -/
  | ldMemV (x : Reg)
  /-- Fx65 LD Vx, [I] -/
  | ldVMem (x : Reg)
deriving DecidableEq, Repr

end Sys2Proof
end

