-- ==== Sys2Proof/WellFormed.lean ====
section
/-! DEFINITION. What must hold of an input before the CORE gives it a meaning. -/

namespace Sys2Proof

/-- A field of `width` bits holds `v` (30_encoding.md R71). -/
def fitsField (width v : Nat) : Bool := decide (v < 2 ^ width)

/-- Every operand fits its field of the opcode word: x and y in 4 bits, n in 4, nn in 8, nnn in 12
(30_encoding.md R71, R75). The operand types of `Instr` are those ranges, so every term passes: an
instruction that no word encodes cannot be written down. -/
def Instr.wellFormed : Instr → Bool
  | .cls | .ret => true
  | .jp nnn | .call nnn | .ldI nnn | .jpV0 nnn => fitsField 12 nnn.toNat
  | .seImm x nn | .sneImm x nn | .ldImm x nn | .addImm x nn | .rnd x nn =>
    fitsField 4 x.val && fitsField 8 nn.toNat
  | .seReg x y | .sneReg x y | .ldReg x y | .orReg x y | .andReg x y | .xorReg x y
  | .addReg x y | .subReg x y | .shr x y | .subnReg x y | .shl x y =>
    fitsField 4 x.val && fitsField 4 y.val
  | .drw x y n => fitsField 4 x.val && fitsField 4 y.val && fitsField 4 n.toNat
  | .skp x | .sknp x | .ldVxDT x | .ldVxK x | .ldDTVx x | .ldSTVx x | .addI x | .ldF x
  | .ldB x | .ldMemV x | .ldVMem x => fitsField 4 x.val

/-- A program image LOAD accepts: at most 4096 - 0x200 = 3584 bytes (70_reset_and_hazards.md R251,
R254). -/
def imageWellFormed (image : List Byte) : Bool := decide (image.length ≤ Config.progMax)

/-- A key index the host may name: "where k ∈ [0,16)" (60_exceptions.md R235). -/
def keyWellFormed (k : Nat) : Bool := decide (k < 16)

end Sys2Proof
end

