-- ==== Sys2Proof/Decode.lean ====
section
/-! DEFINITION. The opcode map (30_encoding.md R76), the decoder that selects its row (R77), and the
encoder written from the same patterns. Everything here is total (R80). -/

namespace Sys2Proof

/-! ## Fields of an opcode word (00_scope.md R9, 30_encoding.md R71) -/

/-- x = op[11:8] -/
def fieldX (op : Word) : Reg := ⟨(op.extractLsb' 8 4).toNat, (op.extractLsb' 8 4).isLt⟩

/-- y = op[7:4] -/
def fieldY (op : Word) : Reg := ⟨(op.extractLsb' 4 4).toNat, (op.extractLsb' 4 4).isLt⟩

/-- n = op[3:0] -/
def fieldN (op : Word) : Imm4 := op.extractLsb' 0 4

/-- nn = op[7:0] -/
def fieldNN (op : Word) : Byte := op.extractLsb' 0 8

/-- nnn = op[11:0] -/
def fieldNNN (op : Word) : Imm12 := op.extractLsb' 0 12

/-! ## The opcode map -/

/-- One row of R76: the mask, the match value, and the instruction with the fields of its pattern. -/
structure Row where
  mask : Word
  pat : Word
  build : Word → Instr

/-- A word selects a row when `(op & mask) = match` (R76). -/
def Row.accepts (r : Row) (op : Word) : Bool := op &&& r.mask == r.pat

/-- Rows 1-9 of R76. -/
def opcodeRows1 : List Row :=
  [ ⟨0xFFFF, 0x00E0, fun _ => .cls⟩,
    ⟨0xFFFF, 0x00EE, fun _ => .ret⟩,
    ⟨0xF000, 0x1000, fun op => .jp (fieldNNN op)⟩,
    ⟨0xF000, 0x2000, fun op => .call (fieldNNN op)⟩,
    ⟨0xF000, 0x3000, fun op => .seImm (fieldX op) (fieldNN op)⟩,
    ⟨0xF000, 0x4000, fun op => .sneImm (fieldX op) (fieldNN op)⟩,
    ⟨0xF00F, 0x5000, fun op => .seReg (fieldX op) (fieldY op)⟩,
    ⟨0xF000, 0x6000, fun op => .ldImm (fieldX op) (fieldNN op)⟩,
    ⟨0xF000, 0x7000, fun op => .addImm (fieldX op) (fieldNN op)⟩ ]

/-- Rows 10-23 of R76. -/
def opcodeRows2 : List Row :=
  [ ⟨0xF00F, 0x8000, fun op => .ldReg (fieldX op) (fieldY op)⟩,
    ⟨0xF00F, 0x8001, fun op => .orReg (fieldX op) (fieldY op)⟩,
    ⟨0xF00F, 0x8002, fun op => .andReg (fieldX op) (fieldY op)⟩,
    ⟨0xF00F, 0x8003, fun op => .xorReg (fieldX op) (fieldY op)⟩,
    ⟨0xF00F, 0x8004, fun op => .addReg (fieldX op) (fieldY op)⟩,
    ⟨0xF00F, 0x8005, fun op => .subReg (fieldX op) (fieldY op)⟩,
    ⟨0xF00F, 0x8006, fun op => .shr (fieldX op) (fieldY op)⟩,
    ⟨0xF00F, 0x8007, fun op => .subnReg (fieldX op) (fieldY op)⟩,
    ⟨0xF00F, 0x800E, fun op => .shl (fieldX op) (fieldY op)⟩,
    ⟨0xF00F, 0x9000, fun op => .sneReg (fieldX op) (fieldY op)⟩,
    ⟨0xF000, 0xA000, fun op => .ldI (fieldNNN op)⟩,
    ⟨0xF000, 0xB000, fun op => .jpV0 (fieldNNN op)⟩,
    ⟨0xF000, 0xC000, fun op => .rnd (fieldX op) (fieldNN op)⟩,
    ⟨0xF000, 0xD000, fun op => .drw (fieldX op) (fieldY op) (fieldN op)⟩ ]

/-- Rows 24-34 of R76. -/
def opcodeRows3 : List Row :=
  [ ⟨0xF0FF, 0xE09E, fun op => .skp (fieldX op)⟩,
    ⟨0xF0FF, 0xE0A1, fun op => .sknp (fieldX op)⟩,
    ⟨0xF0FF, 0xF007, fun op => .ldVxDT (fieldX op)⟩,
    ⟨0xF0FF, 0xF00A, fun op => .ldVxK (fieldX op)⟩,
    ⟨0xF0FF, 0xF015, fun op => .ldDTVx (fieldX op)⟩,
    ⟨0xF0FF, 0xF018, fun op => .ldSTVx (fieldX op)⟩,
    ⟨0xF0FF, 0xF01E, fun op => .addI (fieldX op)⟩,
    ⟨0xF0FF, 0xF029, fun op => .ldF (fieldX op)⟩,
    ⟨0xF0FF, 0xF033, fun op => .ldB (fieldX op)⟩,
    ⟨0xF0FF, 0xF055, fun op => .ldMemV (fieldX op)⟩,
    ⟨0xF0FF, 0xF065, fun op => .ldVMem (fieldX op)⟩ ]

/-- The complete opcode map of R76, its 34 rows in the spec's order. -/
def opcodeTable : List Row := opcodeRows1 ++ opcodeRows2 ++ opcodeRows3

/-! ## The decoder -/

/-- Why bytes decode to no instruction. -/
inductive DecodeReject where
  /-- No row of R76 matches the word: UNRECOGNIZED, which the machine runs as a no-op (R78, R79).
  Safe: it is the spec's own outcome of DECODE. -/
  | unrecognized
  /-- Fewer than two bytes: no instruction word (R70). The machine never decodes such a list, since
  a fetch yields two bytes or stops (R72). Safe. -/
  | truncated
deriving DecidableEq, Repr

/-- DECODE(op) of R77: the row of R76 whose `(op & mask) = match`, or UNRECOGNIZED. At most one row
matches any word, so the order of the rows does not matter. -/
def decodeWord (op : Word) : Except DecodeReject Instr :=
  match opcodeTable.find? (·.accepts op) with
  | some r => .ok (r.build op)
  | none => .error .unrecognized

/-- The opcode composed big-endian from two bytes (R73). -/
def opcodeOf (hi lo : Byte) : Word := low16 (hi.toNat * 256 + lo.toNat)

/-- Decode the instruction at the head of a list of bytes: it always takes two (R70). -/
def decode : List Byte → Except DecodeReject Instr
  | hi :: lo :: _ => decodeWord (opcodeOf hi lo)
  | _ => .error .truncated

/-! ## The encoder -/

/-- A word from its four nibbles, high nibble first: the way R76 writes a pattern. -/
def nibbles (family x y n : BitVec 4) : Word := family ++ x ++ y ++ n

/-- The nibble of a register number. -/
def regNibble (x : Reg) : BitVec 4 := BitVec.ofNat 4 x.val

/-- A word of a pattern `_xnn`. -/
def wordXNN (family : BitVec 4) (x : Reg) (nn : Byte) : Word := family ++ regNibble x ++ nn

/-- A word of a pattern `_nnn`. -/
def wordNNN (family : BitVec 4) (nnn : Imm12) : Word := family ++ nnn

/-- A word of a pattern `_xy_`, the last nibble fixed or the immediate n. -/
def wordXY (family : BitVec 4) (x y : Reg) (n : BitVec 4) : Word :=
  nibbles family (regNibble x) (regNibble y) n

/-- The word of an instruction, from the patterns of R76. -/
def encodeWord : Instr → Word
  | .cls => 0x00E0
  | .ret => 0x00EE
  | .jp nnn => wordNNN 0x1 nnn
  | .call nnn => wordNNN 0x2 nnn
  | .seImm x nn => wordXNN 0x3 x nn
  | .sneImm x nn => wordXNN 0x4 x nn
  | .seReg x y => wordXY 0x5 x y 0x0
  | .ldImm x nn => wordXNN 0x6 x nn
  | .addImm x nn => wordXNN 0x7 x nn
  | .ldReg x y => wordXY 0x8 x y 0x0
  | .orReg x y => wordXY 0x8 x y 0x1
  | .andReg x y => wordXY 0x8 x y 0x2
  | .xorReg x y => wordXY 0x8 x y 0x3
  | .addReg x y => wordXY 0x8 x y 0x4
  | .subReg x y => wordXY 0x8 x y 0x5
  | .shr x y => wordXY 0x8 x y 0x6
  | .subnReg x y => wordXY 0x8 x y 0x7
  | .shl x y => wordXY 0x8 x y 0xE
  | .sneReg x y => wordXY 0x9 x y 0x0
  | .ldI nnn => wordNNN 0xA nnn
  | .jpV0 nnn => wordNNN 0xB nnn
  | .rnd x nn => wordXNN 0xC x nn
  | .drw x y n => wordXY 0xD x y n
  | .skp x => wordXNN 0xE x 0x9E
  | .sknp x => wordXNN 0xE x 0xA1
  | .ldVxDT x => wordXNN 0xF x 0x07
  | .ldVxK x => wordXNN 0xF x 0x0A
  | .ldDTVx x => wordXNN 0xF x 0x15
  | .ldSTVx x => wordXNN 0xF x 0x18
  | .addI x => wordXNN 0xF x 0x1E
  | .ldF x => wordXNN 0xF x 0x29
  | .ldB x => wordXNN 0xF x 0x33
  | .ldMemV x => wordXNN 0xF x 0x55
  | .ldVMem x => wordXNN 0xF x 0x65

/-- The two bytes of an opcode word as MEM holds them, the high byte first (R73,
70_reset_and_hazards.md R253). -/
def wordBytes (op : Word) : List Byte := [op.extractLsb' 8 8, op.extractLsb' 0 8]

/-- The bytes of an instruction. -/
def encode (i : Instr) : List Byte := wordBytes (encodeWord i)

/-! ## The host's reading of one table word -/

/-- The opcode word the host numbers `w` with `nbits` bits: bit 0 is the least significant bit of the
16-bit word, and every bit above `nbits` is 0. -/
def tableWord (nbits w : Nat) : Word := low16 (w % 2 ^ nbits)

/-- The instruction the decoder reads from that word, laid out as MEM holds it. -/
def decodeTableWord (nbits w : Nat) : Option Instr :=
  match decode (wordBytes (tableWord nbits w)) with
  | .ok i => some i
  | .error _ => none

end Sys2Proof
end

