-- ==== Sys2Proof/Machine/State.lean ====
section
/-! DEFINITION. The state of the CORE (10_state.md R20: "Nothing else is state"), its value after LOAD
of an empty image (10_state.md R37), and the reasons a STEP can stop (60_exceptions.md R211). -/

namespace Sys2Proof.Machine

/-- STATUS.state (10_state.md R33). -/
inductive RunState where
  | running | waitingKey | halted | faulted | quit
deriving DecidableEq, Repr, Inhabited

/-- STATUS.cause (60_exceptions.md R211). -/
inductive Cause where
  | none | haltEndOfMemory | stackOverflow | stackUnderflow | memRange | fontWrite | keyRange
  | quit | loadTooLarge
deriving DecidableEq, Repr, Inhabited

/-- The STATUS record (10_state.md R33). -/
structure Status where
  state : RunState
  waitX : Reg
  cause : Cause
  faultPc : Word
  faultOpcode : Word
  faultAddr : Word
deriving DecidableEq, Repr, Inhabited

/-- Why an instruction, a fetch or a LOAD faults (60_exceptions.md R211, R213). `State.takeFault`
records each in STATUS, in a next state, as R214 describes it (log 5), so `step` itself never answers
`Outcome.fault`; `reportTransact` of Safety.lean turns a FAULTED next state into these, as R215 asks. -/
inductive Fault where
  /-- 2nnn with SP = 16 (40_control_flow.md R102). Safe: the spec names the stop. -/
  | stackOverflow
  /-- 00EE with SP = 0 (40_control_flow.md R100). Safe: the spec names the stop. -/
  | stackUnderflow
  /-- Fetch at pc = 0xFFF, and Dxyn, Fx33, Fx55, Fx65 with an address at or above 0x1000; `addr` is the
  lowest such address (20_memory.md R54, R57). Safe: the spec names the stop. -/
  | memRange (addr : Nat)
  /-- Fx33, Fx55 with an address below 0x050; `addr` is the lowest (20_memory.md R52). Safe. -/
  | fontWrite (addr : Nat)
  /-- Ex9E, ExA1 with Vx ≥ 16; `k` is Vx (44_timers_keypad.md R190, R191). Safe. -/
  | keyRange (k : Byte)
  /-- LOAD of an image longer than 3584 bytes (70_reset_and_hazards.md R251). Safe. -/
  | loadTooLarge
deriving DecidableEq, Repr, Inhabited

/-- Why the model gives an instruction no meaning. -/
inductive Refusal where
  /-- Raised by an arm of `exec` whose instruction has no meaning yet; there is none left. Safe: the
  model stops where the hardware goes on. -/
  | notModelled (mnemonic : String)
deriving DecidableEq, Repr, Inhabited

/-- MEM as a list of (address, byte), in the canonical form `Memory.wf` of Machine/Ops.lean. -/
abbrev Memory := List Host.Cell

/-- FB: 32 rows of 64 pixels, `true` = set (10_state.md R30). -/
abbrev Framebuffer := Vector (Vector Bool 64) 32

/-- The state of the CORE (10_state.md R20). -/
structure State where
  /-- MEM, 4096 bytes (20_memory.md R50) -/
  mem : Memory
  /-- V0-VF (10_state.md R21) -/
  v : Vector Byte 16
  /-- I (10_state.md R25) -/
  i : Word
  /-- pc (10_state.md R23) -/
  pc : Word
  /-- STACK (10_state.md R26) -/
  stack : Vector Word 16
  /-- SP, the number of entries on the stack (10_state.md R27) -/
  sp : Fin 17
  /-- DT (10_state.md R28) -/
  dt : Byte
  /-- ST (10_state.md R29) -/
  st : Byte
  /-- FB (10_state.md R30) -/
  fb : Framebuffer
  /-- DIRTY (10_state.md R31) -/
  dirty : Bool
  /-- KEY, `true` = down (10_state.md R32) -/
  key : Vector Bool 16
  /-- STATUS (10_state.md R33) -/
  status : Status
  /-- The model's own: how many free values have been drawn (log 2). -/
  draws : Nat
deriving DecidableEq, Repr, Inhabited

/-- STATUS after LOAD: RUNNING, every other field 0 (10_state.md R37). -/
def Status.reset : Status :=
  { state := .running, waitX := 0, cause := .none, faultPc := 0, faultOpcode := 0, faultAddr := 0 }

/-- A clear framebuffer (10_state.md R37, 43_display.md R170). -/
def Framebuffer.clear : Framebuffer := Vector.replicate 32 (Vector.replicate 64 false)

/-- The machine after LOAD of an empty image (10_state.md R37, 70_reset_and_hazards.md R254; log 3).
No byte of MEM is listed: unlisted bytes read as the font below 0x050 and as 0 above. -/
def State.reset : State :=
  { mem := []
    v := Vector.replicate 16 0
    i := 0
    pc := 0x200
    stack := Vector.replicate 16 0
    sp := 0
    dt := 0
    st := 0
    fb := Framebuffer.clear
    dirty := false
    key := Vector.replicate 16 false
    status := Status.reset
    draws := 0 }

end Sys2Proof.Machine
end

