-- ==== Sys2Proof/Machine/Ops.lean ====
section
/-! DEFINITION. The shared operations over the state: the accessors of each piece of state, the address
decoder, the call stack, the framebuffer, taking a stop, and the execute phase every instruction's
meaning runs in. -/

namespace Sys2Proof.Machine

/-! ## Registers (10_state.md R21-R32, 00_scope.md R10) -/

/-- `V[x]` -/
def State.getV (s : State) (x : Reg) : Byte := s.v[x.val]

/-- `V[x] <- b`; no V register is hard-wired (10_state.md R21) -/
def State.setV (s : State) (x : Reg) (b : Byte) : State := { s with v := s.v.set x.val b }

/-- `I <- w` -/
def State.setI (s : State) (w : Word) : State := { s with i := w }

/-- `pc <- w` -/
def State.setPc (s : State) (w : Word) : State := { s with pc := w }

/-- `DT <- b` -/
def State.setDT (s : State) (b : Byte) : State := { s with dt := b }

/-- `ST <- b` -/
def State.setST (s : State) (b : Byte) : State := { s with st := b }

/-- Replace FB. -/
def State.setFb (s : State) (fb : Framebuffer) : State := { s with fb := fb }

/-- `DIRTY <- d` -/
def State.setDirty (s : State) (d : Bool) : State := { s with dirty := d }

/-- `KEY[k]` -/
def State.getKey (s : State) (k : Key) : Bool := s.key[k.val]

/-- `KEY[k] <- d` -/
def State.setKey (s : State) (k : Key) (d : Bool) : State := { s with key := s.key.set k.val d }

/-- Replace MEM. -/
def State.setMem (s : State) (m : Memory) : State := { s with mem := m }

/-- Replace STATUS. -/
def State.setStatus (s : State) (st : Status) : State := { s with status := st }

/-- Move to the next free value (log 2). -/
def State.nextDraw (s : State) : State := { s with draws := s.draws + 1 }

/-- The number STATUS.state is read as (10_state.md R33). -/
def RunState.code : RunState → BitVec 3
  | .running => 0
  | .waitingKey => 1
  | .halted => 2
  | .faulted => 3
  | .quit => 4

/-- The number STATUS.cause is read as (60_exceptions.md R211). -/
def Cause.code : Cause → BitVec 4
  | .none => 0
  | .haltEndOfMemory => 1
  | .stackOverflow => 2
  | .stackUnderflow => 3
  | .memRange => 4
  | .fontWrite => 5
  | .keyRange => 6
  | .quit => 7
  | .loadTooLarge => 8

/-! ## MEM -/

/-- What an address that `mem` does not list reads as: the reset contents of MEM (10_state.md R37),
FONT below 0x050 and zero above (log 1, log 11). -/
def unlisted (a : Nat) : Byte := if a < Config.fontSize then Config.font a else 0

/-- `MEM[a]`, for an address the decoder selects. -/
def Memory.read : Memory → Nat → Byte
  | [], a => unlisted a
  | (k, b) :: rest, a => if k = a then b else Memory.read rest a

/-- `MEM[a] <- b`, for an address the decoder selects; keeps the canonical form. -/
def Memory.write : Memory → Nat → Byte → Memory
  | [], a, b => if b = unlisted a then [] else [(a, b)]
  | (k, c) :: rest, a, b =>
    if a < k then (if b = unlisted a then (k, c) :: rest else (a, b) :: (k, c) :: rest)
    else if a = k then (if b = unlisted a then rest else (a, b) :: rest)
    else (k, c) :: Memory.write rest a b

/-- The canonical form: addresses strictly rising, each below 4096, and no entry equal to what its
address reads as when it is not listed (log 11). -/
abbrev Memory.wf (m : Memory) : Prop :=
  m.Pairwise (fun c d => c.1 < d.1) ∧ ∀ c ∈ m, c.1 < Config.memSize ∧ c.2 ≠ unlisted c.1

/-- `MemRead(a, 1)` (20_memory.md R55): the address is an exact integer, never reduced (R53). -/
def memRead (m : Memory) (a : Nat) : Except Fault Byte :=
  if a < Config.memSize then .ok (m.read a) else .error (.memRange a)

/-- `MemWrite(a, 1, b)` (20_memory.md R56). -/
def memWrite (m : Memory) (a : Nat) (b : Byte) : Except Fault Memory :=
  if a < Config.fontSize then .error (.fontWrite a)
  else if a < Config.memSize then .ok (m.write a b)
  else .error (.memRange a)

/-- Read the `n` bytes at `a`, `a + 1`, … in increasing order. A fault is that of the lowest address
that has one, and answers no byte (20_memory.md R57). -/
def readRun (m : Memory) (a : Nat) : Nat → Except Fault (List Byte)
  | 0 => .ok []
  | n + 1 =>
    match memRead m a with
    | .error f => .error f
    | .ok b =>
      match readRun m (a + 1) n with
      | .error f => .error f
      | .ok bs => .ok (b :: bs)

/-- Write bytes at `a`, `a + 1`, … in increasing order. A fault is that of the lowest address that has
one, and answers no memory, so that none of the bytes is written (20_memory.md R57). -/
def writeRun (m : Memory) (a : Nat) : List Byte → Except Fault Memory
  | [] => .ok m
  | b :: bs =>
    match memWrite m a b with
    | .error f => .error f
    | .ok m' => writeRun m' (a + 1) bs

/-- Place bytes at `a`, `a + 1`, … without the decoder's checks: what LOAD does with an image, and
what `withFetchWord` does with a word. -/
def placeBytes (m : Memory) (a : Nat) : List Byte → Memory
  | [] => m
  | b :: bs => placeBytes (m.write a b) (a + 1) bs

/-! ## The call stack (10_state.md R26, R27) -/

/-- Push: `STACK[SP] <- w`, then `SP <- SP + 1`; allowed only when SP < 16. -/
def State.push (s : State) (w : Word) : Except Fault State :=
  if h : s.sp.val < 16 then
    .ok { s with stack := s.stack.set s.sp.val w, sp := ⟨s.sp.val + 1, by omega⟩ }
  else .error .stackOverflow

/-- Pop: `SP <- SP - 1`, then read `STACK[SP]`; allowed only when SP > 0. The entry keeps its value. -/
def State.pop (s : State) : Except Fault (Word × State) :=
  if h : 0 < s.sp.val then
    .ok (s.stack[s.sp.val - 1]'(by omega), { s with sp := ⟨s.sp.val - 1, by omega⟩ })
  else .error .stackUnderflow

/-! ## The framebuffer (10_state.md R30) -/

/-- `FB[y][x]` -/
def Framebuffer.pixel (fb : Framebuffer) (y : Fin 32) (x : Fin 64) : Bool := fb[y.val][x.val]

/-- `FB[y][x] <- FB[y][x] ^ 1` -/
def Framebuffer.flip (fb : Framebuffer) (y : Fin 32) (x : Fin 64) : Framebuffer :=
  fb.set y.val (fb[y.val].set x.val (!fb[y.val][x.val]))

/-! ## Stops (60_exceptions.md R211-R214, R218) -/

/-- The cause code of a fault (60_exceptions.md R211). -/
def Fault.cause : Fault → Cause
  | .stackOverflow => .stackOverflow
  | .stackUnderflow => .stackUnderflow
  | .memRange _ => .memRange
  | .fontWrite _ => .fontWrite
  | .keyRange _ => .keyRange
  | .loadTooLarge => .loadTooLarge

/-- What fault_addr records of a fault (60_exceptions.md R211). -/
def Fault.addr : Fault → Word
  | .stackOverflow => 16
  | .stackUnderflow => 0
  | .memRange a => low16 a
  | .fontWrite a => low16 a
  | .keyRange k => k.zeroExtend 16
  | .loadTooLarge => 0

/-- Stop the machine: STATUS records the run state, the cause, the pc of the instruction or of the
fetch, the opcode and the address. Nothing else changes, no control is transferred (R212, R214, R216,
R218); wait_x is not among the fields a stop writes (log 9). -/
def State.stop (s : State) (state : RunState) (cause : Cause) (opcode addr : Word) : State :=
  s.setStatus { s.status with
    state := state, cause := cause, faultPc := s.pc, faultOpcode := opcode, faultAddr := addr }

/-- TAKING A FAULT (R214), on the state before the STEP: only STATUS changes, and pc keeps the
instruction's address, fetch's advance undone. There is no return from it (R219). -/
def State.takeFault (s : State) (opcode : Word) (f : Fault) : State :=
  s.stop .faulted f.cause opcode f.addr

/-- The halt of a fetch at pc ≥ 0x1000 (R212): opcode 0, fault_addr = pc. -/
def State.takeHalt (s : State) : State := s.stop .halted .haltEndOfMemory 0 s.pc

/-! ## The execute phase (00_scope.md R12, 30_encoding.md R72) -/

/-- Fetch's advance of pc by 2 (R72). -/
def State.advance (s : State) : State := s.setPc (s.pc + 2)

/-- Run the execute phase of instruction `i` at the state `s` whose pc is the instruction's address:
the phase sees pc advanced by 2 (R12); if it raises a fault, the fault is taken at `s`, so that no part
of the effect occurs (60_exceptions.md R214). The opcode recorded is the instruction's word (log 8). -/
def State.execute (i : Instr) (s : State) (phase : State → Except Fault State) :
    Host.Outcome State Fault Refusal :=
  match phase s.advance with
  | .ok t => .next t
  | .error f => .next (s.takeFault (encodeWord i) f)

end Sys2Proof.Machine
end

