-- ==== Sys2Proof/Machine/Operands.lean ====
section
/-! DEFINITION. The operand forms: immediates, the jump offset of Bnnn, the skip, I-relative access to
runs of bytes, register ranges, glyph addresses and decimal digits. -/

namespace Sys2Proof.Machine

/-- nnn as an address: `zext_16(op[11:0])` (30_encoding.md R75). -/
def immAddr (nnn : Imm12) : Word := nnn.zeroExtend 16

/-- A register value as a 16-bit operand: `zext_16(V[x])` (00_scope.md R10). -/
def zext16 (b : Byte) : Word := b.zeroExtend 16

/-- "Skip": a further `pc <- pc + 2` in the execute phase when the condition holds
(40_control_flow.md, opening paragraph). -/
def State.skipIf (s : State) (c : Bool) : State := if c then s.setPc (s.pc + 2) else s

/-- The base of an I-relative access as an exact integer (42_index_memory.md R156). -/
def State.base (s : State) : Nat := s.i.toNat

/-- The sprite's or the registers' bytes `MEM[I .. I+n-1]` (42_index_memory.md R155,
43_display.md R171). -/
def State.readAtI (s : State) (n : Nat) : Except Fault (List Byte) := readRun s.mem s.base n

/-- Store bytes at `I, I+1, …` (42_index_memory.md R153, R154). -/
def State.writeAtI (s : State) (bytes : List Byte) : Except Fault State :=
  match writeRun s.mem s.base bytes with
  | .ok m => .ok (s.setMem m)
  | .error f => .error f

/-- The registers V0..Vx inclusive (42_index_memory.md R154). -/
def State.regsUpTo (s : State) (x : Reg) : List Byte := s.v.toList.take (x.val + 1)

/-- `V[i] <- bytes[i]` for every i the list has; the other registers keep their value
(42_index_memory.md R155). -/
def State.loadRegs (s : State) (bytes : List Byte) : State :=
  { s with v := Vector.ofFn fun i : Fin 16 => bytes.getD i.val (s.getV i) }

/-- The three decimal digits of a byte: hundreds, tens, ones (42_index_memory.md R153). -/
def bcdDigits (b : Byte) : List Byte :=
  [low8 (b.toNat / 100), low8 (b.toNat / 10 % 10), low8 (b.toNat % 10)]

/-- The font address of Vx: `zext_16(V[x]) * 5`, not masked to a digit (42_index_memory.md R152). -/
def glyphAddr (b : Byte) : Word := low16 (b.toNat * 5)

/-- The key a register names; a value of 16 or more names none (44_timers_keypad.md R190, R191). -/
def keyOf (b : Byte) : Except Fault Key :=
  if h : b.toNat < 16 then .ok ⟨b.toNat, h⟩ else .error (.keyRange b)

end Sys2Proof.Machine
end

