-- ==== Sys2Proof/Machine/Flags.lean ====
section
/-! DEFINITION. The results and flags of the arithmetic of 41_alu.md: exact integers, narrowed to 8
bits (R132, R133), and VF, the only flag (10_state.md R22, R34). -/

namespace Sys2Proof.Machine

/-- VF, register 15. -/
abbrev VF : Reg := 15

/-- A flag as VF holds it: 0 or 1 (10_state.md R22). -/
def flagByte (f : Bool) : Byte := if f then 1 else 0

/-- `V[x] <- r`, then `V[0xF] <- f`: the flag is written last, so it remains when x = F
(00_scope.md R11, 41_alu.md R126-R130). -/
def State.setVFlag (s : State) (x : Reg) (r : Byte) (f : Bool) : State :=
  (s.setV x r).setV VF (flagByte f)

/-- `low8(a + b)` (41_alu.md R121, R126) -/
def addResult (a b : Byte) : Byte := low8 (a.toNat + b.toNat)

/-- The carry: the sum exceeds 255 (41_alu.md R126). -/
def carry (a b : Byte) : Bool := decide (255 < a.toNat + b.toNat)

/-- `low8(a - b + 256)` (41_alu.md R127, R129) -/
def subResult (a b : Byte) : Byte := low8 (a.toNat + 256 - b.toNat)

/-- The flag of `a - b`: 0 if it borrows (b > a), else 1 (41_alu.md R127, R129). -/
def notBorrow (a b : Byte) : Bool := decide (b.toNat ≤ a.toNat)

/-- `a >> 1` (41_alu.md R128) -/
def shrResult (a : Byte) : Byte := low8 (a.toNat / 2)

/-- The bit a right shift drops: bit 0 of the old value (41_alu.md R128). -/
def shrOut (a : Byte) : Bool := a.getLsbD 0

/-- `low8(a << 1)` (41_alu.md R130) -/
def shlResult (a : Byte) : Byte := low8 (a.toNat * 2)

/-- The bit a left shift drops: bit 7 of the old value (41_alu.md R130). -/
def shlOut (a : Byte) : Bool := a.getLsbD 7

end Sys2Proof.Machine
end

