-- ==== Sys2Proof/Machine/Alu.lean ====
section
/-! DEFINITION. Register loads, arithmetic and logic (41_alu.md). No instruction here accesses MEM,
changes pc beyond fetch's advance, or raises a fault. -/

namespace Sys2Proof.Machine

/-- 6xnn LD Vx, nn (R120) -/
def execLdImm (x : Reg) (nn : Byte) (s : State) : Host.Outcome State Fault Refusal :=
  s.execute (.ldImm x nn) fun s => .ok (s.setV x nn)

/-- 7xnn ADD Vx, nn (R121): no flag. -/
def execAddImm (x : Reg) (nn : Byte) (s : State) : Host.Outcome State Fault Refusal :=
  s.execute (.addImm x nn) fun s => .ok (s.setV x (addResult (s.getV x) nn))

/-- 8xy0 LD Vx, Vy (R122) -/
def execLdReg (x y : Reg) (s : State) : Host.Outcome State Fault Refusal :=
  s.execute (.ldReg x y) fun s => .ok (s.setV x (s.getV y))

/-- 8xy1 OR Vx, Vy (R123): no flag. -/
def execOrReg (x y : Reg) (s : State) : Host.Outcome State Fault Refusal :=
  s.execute (.orReg x y) fun s => .ok (s.setV x (s.getV x ||| s.getV y))

/-- 8xy2 AND Vx, Vy (R124): no flag. -/
def execAndReg (x y : Reg) (s : State) : Host.Outcome State Fault Refusal :=
  s.execute (.andReg x y) fun s => .ok (s.setV x (s.getV x &&& s.getV y))

/-- 8xy3 XOR Vx, Vy (R125): no flag. -/
def execXorReg (x y : Reg) (s : State) : Host.Outcome State Fault Refusal :=
  s.execute (.xorReg x y) fun s => .ok (s.setV x (s.getV x ^^^ s.getV y))

/-- 8xy4 ADD Vx, Vy (R126): VF := carry. -/
def execAddReg (x y : Reg) (s : State) : Host.Outcome State Fault Refusal :=
  s.execute (.addReg x y) fun s =>
    let a := s.getV x
    let b := s.getV y
    .ok (s.setVFlag x (addResult a b) (carry a b))

/-- 8xy5 SUB Vx, Vy (R127): Vx - Vy, VF := not borrow. -/
def execSubReg (x y : Reg) (s : State) : Host.Outcome State Fault Refusal :=
  s.execute (.subReg x y) fun s =>
    let a := s.getV x
    let b := s.getV y
    .ok (s.setVFlag x (subResult a b) (notBorrow a b))

/-- 8xy6 SHR Vx (R128): VF := old bit 0; y has no effect. -/
def execShr (x y : Reg) (s : State) : Host.Outcome State Fault Refusal :=
  s.execute (.shr x y) fun s =>
    let a := s.getV x
    .ok (s.setVFlag x (shrResult a) (shrOut a))

/-- 8xy7 SUBN Vx, Vy (R129): Vy - Vx, VF := not borrow. -/
def execSubnReg (x y : Reg) (s : State) : Host.Outcome State Fault Refusal :=
  s.execute (.subnReg x y) fun s =>
    let a := s.getV x
    let b := s.getV y
    .ok (s.setVFlag x (subResult b a) (notBorrow b a))

/-- 8xyE SHL Vx (R130): VF := old bit 7; y has no effect. -/
def execShl (x y : Reg) (s : State) : Host.Outcome State Fault Refusal :=
  s.execute (.shl x y) fun s =>
    let a := s.getV x
    .ok (s.setVFlag x (shlResult a) (shlOut a))

/-- Cxnn RND Vx, nn (R131) with the byte `r` the STEP supplies (60_exceptions.md R241). The draw
counter moves on, so that the next draw is unrelated (log 2). -/
def execRndWith (r : Byte) (x : Reg) (nn : Byte) (s : State) : Host.Outcome State Fault Refusal :=
  s.execute (.rnd x nn) fun s => .ok ((s.setV x (r &&& nn)).nextDraw)

/-- Cxnn RND Vx, nn (R131): r is the free value of this draw (log 2). -/
def execRnd (x : Reg) (nn : Byte) (s : State) : Host.Outcome State Fault Refusal :=
  execRndWith (Config.randomByte s.draws) x nn s

end Sys2Proof.Machine
end

