-- ==== Sys2Proof/Machine/Control.lean ====
section
/-! DEFINITION. Control transfer and skips (40_control_flow.md). Each meaning takes the state whose pc
is the instruction's address; inside its phase pc is that address + 2. -/

namespace Sys2Proof.Machine

/-- 00EE RET (R100) -/
def execRet (s : State) : Host.Outcome State Fault Refusal :=
  s.execute .ret fun s =>
    match s.pop with
    | .ok (target, t) => .ok (t.setPc target)
    | .error f => .error f

/-- 1nnn JP nnn (R101) -/
def execJp (nnn : Imm12) (s : State) : Host.Outcome State Fault Refusal :=
  s.execute (.jp nnn) fun s => .ok (s.setPc (immAddr nnn))

/-- 2nnn CALL nnn (R102): the pushed value is the call's address + 2. -/
def execCall (nnn : Imm12) (s : State) : Host.Outcome State Fault Refusal :=
  s.execute (.call nnn) fun s =>
    match s.push s.pc with
    | .ok t => .ok (t.setPc (immAddr nnn))
    | .error f => .error f

/-- 3xnn SE Vx, nn (R103) -/
def execSeImm (x : Reg) (nn : Byte) (s : State) : Host.Outcome State Fault Refusal :=
  s.execute (.seImm x nn) fun s => .ok (s.skipIf (s.getV x == nn))

/-- 4xnn SNE Vx, nn (R104) -/
def execSneImm (x : Reg) (nn : Byte) (s : State) : Host.Outcome State Fault Refusal :=
  s.execute (.sneImm x nn) fun s => .ok (s.skipIf (s.getV x != nn))

/-- 5xy0 SE Vx, Vy (R105) -/
def execSeReg (x y : Reg) (s : State) : Host.Outcome State Fault Refusal :=
  s.execute (.seReg x y) fun s => .ok (s.skipIf (s.getV x == s.getV y))

/-- 9xy0 SNE Vx, Vy (R106) -/
def execSneReg (x y : Reg) (s : State) : Host.Outcome State Fault Refusal :=
  s.execute (.sneReg x y) fun s => .ok (s.skipIf (s.getV x != s.getV y))

/-- Bnnn JP V0, nnn (R107): the sum is at most 0x10FE and is not reduced. -/
def execJpV0 (nnn : Imm12) (s : State) : Host.Outcome State Fault Refusal :=
  s.execute (.jpV0 nnn) fun s => .ok (s.setPc (zext16 (s.getV 0) + immAddr nnn))

end Sys2Proof.Machine
end

