-- ==== Sys2Proof/Machine/Display.lean ====
section
/-! DEFINITION. Clearing the framebuffer and the XOR sprite engine (43_display.md). -/

namespace Sys2Proof.Machine

/-- A draw in progress: the framebuffer, and whether a set pixel has been turned off (R171, R174). -/
structure Blit where
  fb : Framebuffer
  hit : Bool
deriving DecidableEq, Repr

/-- A column coordinate wraps modulo 64 (R173). -/
def wrapX (px : Nat) : Fin 64 := ⟨px % 64, Nat.mod_lt _ (by decide)⟩

/-- A row coordinate wraps modulo 32 (R173). -/
def wrapY (py : Nat) : Fin 32 := ⟨py % 32, Nat.mod_lt _ (by decide)⟩

/-- One bit of a sprite at column `px` and row `py`: a 1 flips its pixel and hits when the pixel was
set, a 0 leaves it (R174). -/
def Blit.plot (d : Blit) (py px : Nat) (bit : Bool) : Blit :=
  if bit then
    { fb := d.fb.flip (wrapY py) (wrapX px)
      hit := d.hit || d.fb.pixel (wrapY py) (wrapX px) }
  else d

/-- One row of a sprite: bit 7 of its byte is the leftmost pixel (R172). -/
def Blit.row (d : Blit) (y x : Nat) (b : Byte) : Blit :=
  (List.range 8).foldl (fun d c => d.plot y (x + c) (b.getLsbD (7 - c))) d

/-- The rows of a sprite, one byte each, from the top (R171, R172). -/
def Blit.rows (d : Blit) (y x : Nat) : List Byte → Blit
  | [] => d
  | b :: bs => (d.row y x b).rows (y + 1) x bs

/-- XOR a sprite into FB with its top left pixel at (x, y) (R171). -/
def drawSprite (fb : Framebuffer) (x y : Nat) (bytes : List Byte) : Blit :=
  Blit.rows { fb := fb, hit := false } y x bytes

/-- 00E0 CLS (R170, R177) -/
def execCls (s : State) : Host.Outcome State Fault Refusal :=
  s.execute .cls fun s => .ok ((s.setFb Framebuffer.clear).setDirty true)

/-- Dxyn DRW Vx, Vy, n (R171): the coordinates are read before VF is written; with n = 0 no byte is
read and none drawn (R176). -/
def execDrw (x y : Reg) (n : Imm4) (s : State) : Host.Outcome State Fault Refusal :=
  s.execute (.drw x y n) fun s =>
    match s.readAtI n.toNat with
    | .ok bytes =>
      let d := drawSprite s.fb (s.getV x).toNat (s.getV y).toNat bytes
      .ok (((s.setFb d.fb).setV VF (flagByte d.hit)).setDirty true)
    | .error f => .error f

end Sys2Proof.Machine
end

