-- ==== Sys2Proof/Machine/IndexMemory.lean ====
section
/-! DEFINITION. The index register and the transfers between MEM and the registers
(42_index_memory.md). -/

namespace Sys2Proof.Machine

/-- Annn LD I, nnn (R150) -/
def execLdI (nnn : Imm12) (s : State) : Host.Outcome State Fault Refusal :=
  s.execute (.ldI nnn) fun s => .ok (s.setI (immAddr nnn))

/-- Fx1E ADD I, Vx (R151): modulo 2^16, VF not written. -/
def execAddI (x : Reg) (s : State) : Host.Outcome State Fault Refusal :=
  s.execute (.addI x) fun s => .ok (s.setI (low16 (s.i.toNat + (s.getV x).toNat)))

/-- Fx29 LD F, Vx (R152) -/
def execLdF (x : Reg) (s : State) : Host.Outcome State Fault Refusal :=
  s.execute (.ldF x) fun s => .ok (s.setI (glyphAddr (s.getV x)))

/-- Fx33 LD B, Vx (R153) -/
def execLdB (x : Reg) (s : State) : Host.Outcome State Fault Refusal :=
  s.execute (.ldB x) fun s => s.writeAtI (bcdDigits (s.getV x))

/-- Fx55 LD [I], Vx (R154): I is not changed. -/
def execLdMemV (x : Reg) (s : State) : Host.Outcome State Fault Refusal :=
  s.execute (.ldMemV x) fun s => s.writeAtI (s.regsUpTo x)

/-- Fx65 LD Vx, [I] (R155): I is not changed; the font may be read. -/
def execLdVMem (x : Reg) (s : State) : Host.Outcome State Fault Refusal :=
  s.execute (.ldVMem x) fun s =>
    match s.readAtI (x.val + 1) with
    | .ok bytes => .ok (s.loadRegs bytes)
    | .error f => .error f

end Sys2Proof.Machine
end

