-- ==== Sys2Proof/Machine/TimersKeypad.lean ====
section
/-! DEFINITION. The keypad and timer instructions (44_timers_keypad.md). -/

namespace Sys2Proof.Machine

/-- Ex9E SKP Vx (R190) -/
def execSkp (x : Reg) (s : State) : Host.Outcome State Fault Refusal :=
  s.execute (.skp x) fun s =>
    match keyOf (s.getV x) with
    | .ok k => .ok (s.skipIf (s.getKey k))
    | .error f => .error f

/-- ExA1 SKNP Vx (R191) -/
def execSknp (x : Reg) (s : State) : Host.Outcome State Fault Refusal :=
  s.execute (.sknp x) fun s =>
    match keyOf (s.getV x) with
    | .ok k => .ok (s.skipIf (!s.getKey k))
    | .error f => .error f

/-- Fx07 LD Vx, DT (R192) -/
def execLdVxDT (x : Reg) (s : State) : Host.Outcome State Fault Refusal :=
  s.execute (.ldVxDT x) fun s => .ok (s.setV x s.dt)

/-- Fx0A LD Vx, K (R193): the machine waits; `State.keyDown` completes it (60_exceptions.md R233). -/
def execLdVxK (x : Reg) (s : State) : Host.Outcome State Fault Refusal :=
  s.execute (.ldVxK x) fun s =>
    .ok (s.setStatus { s.status with state := .waitingKey, waitX := x })

/-- Fx15 LD DT, Vx (R194) -/
def execLdDTVx (x : Reg) (s : State) : Host.Outcome State Fault Refusal :=
  s.execute (.ldDTVx x) fun s => .ok (s.setDT (s.getV x))

/-- Fx18 LD ST, Vx (R195) -/
def execLdSTVx (x : Reg) (s : State) : Host.Outcome State Fault Refusal :=
  s.execute (.ldSTVx x) fun s => .ok (s.setST (s.getV x))

end Sys2Proof.Machine
end

