-- ==== Sys2Proof/Machine/Fetch.lean ====
section
/-! DEFINITION. Fetch, and one STEP as fetch, decode, execute (30_encoding.md R72-R74, R79;
60_exceptions.md R231, R232). -/

namespace Sys2Proof.Machine

/-- What a fetch answers. -/
inductive Fetched where
  /-- The bytes at pc and pc + 1. -/
  | bytes (bs : List Byte)
  /-- pc ≥ 0x1000: the normal end of the run (R74, 60_exceptions.md R212). -/
  | halt
  /-- pc = 0xFFF: the second byte is outside MEM (R74). -/
  | fault (f : Fault)
deriving DecidableEq, Repr

/-- FETCH (R72): MEM as it is at the start of the STEP (20_memory.md R66), at any alignment of pc
(20_memory.md R59). Nothing is read when it stops. -/
def State.fetch (s : State) : Fetched :=
  if Config.memSize ≤ s.pc.toNat then .halt
  else
    match readRun s.mem s.pc.toNat 2 with
    | .ok bs => .bytes bs
    | .error f => .fault f

/-- One STEP whose instructions mean `run` (60_exceptions.md R231): fetch, decode, run the instruction,
or advance pc alone when the word is UNRECOGNIZED (R79). In any state but RUNNING nothing changes
(60_exceptions.md R232). `run` is given the state before the advance of pc; `State.execute` makes the
advance (log 8). -/
def fetchDecodeExecute (run : Instr → State → Host.Outcome State Fault Refusal) (s : State) :
    Host.Outcome State Fault Refusal :=
  match s.status.state with
  | .running =>
    match s.fetch with
    | .halt => .next s.takeHalt
    | .fault f => .next (s.takeFault 0 f)
    | .bytes bs =>
      match decode bs with
      | .ok i => run i s
      | .error _ => .next s.advance
  | .waitingKey | .halted | .faulted | .quit => .next s

/-- `s` with what a fetch needs: RUNNING, and a pc whose two bytes are in MEM; nothing else is changed,
and nothing at all where both hold (log 3). -/
def State.readyToFetch (s : State) : State :=
  let t := if s.pc.toNat < 0xFFF then s else s.setPc 0x200
  match t.status.state with
  | .running => t
  | .waitingKey | .halted | .faulted | .quit => t.setStatus Status.reset

/-- `s` with a word placed where the next fetch reads it. -/
def State.placeWord (s : State) (op : Word) : State :=
  s.setMem (placeBytes s.mem s.pc.toNat (wordBytes op))

end Sys2Proof.Machine
end

