-- ==== Sys2Proof/Machine/Step.lean ====
section
/-! DEFINITION. The step of the machine, and a state prepared to run one given word. -/

namespace Sys2Proof.Machine

/-- The STEP transaction (60_exceptions.md R231, R232), its random byte r a free value (log 2). -/
def step (s : State) : Host.Outcome State Fault Refusal := fetchDecodeExecute exec s

/-- `s` with the word `w` of `nbits` bits where `step` fetches its next instruction, high byte first
(30_encoding.md R73), so that the next step runs exactly it (log 3). -/
def State.withFetchWord (s : State) (nbits w : Nat) : State :=
  s.readyToFetch.placeWord (tableWord nbits w)

end Sys2Proof.Machine
end

