-- ==== Sys2Proof/Machine/HostInterface.lean ====
section
/-! DEFINITION. The host interface: the seven transactions, applied one at a time in any order the
host chooses, and the outputs (60_exceptions.md R230-R240, 70_reset_and_hazards.md R250, R251). -/

namespace Sys2Proof

/-- The state items a failed LOAD leaves unspecified (70_reset_and_hazards.md R251), at its `n`-th free
draw. A free value (log 4). -/
opaque Config.unspecified : Nat → Machine.State

namespace Machine

/-! ## Timers and keypad -/

/-- A timer counts down, floored at 0 (R236). -/
def countDown (b : Byte) : Byte := low8 (b.toNat - 1)

/-- TICK (R236): the same in every run state. -/
def State.tick (s : State) : State := (s.setDT (countDown s.dt)).setST (countDown s.st)

/-- KEY_DOWN(k) (R233): the key is down; a pending Fx0A completes, whether or not the key was down
already. -/
def State.keyDown (k : Key) (s : State) : State :=
  let t := s.setKey k true
  match t.status.state with
  | .waitingKey =>
    (t.setV t.status.waitX (low8 k.val)).setStatus { t.status with state := .running, waitX := 0 }
  | .running | .halted | .faulted | .quit => t

/-- KEY_UP(k) (R234) -/
def State.keyUp (k : Key) (s : State) : State := s.setKey k false

/-! ## Display acknowledge and quit -/

/-- PRESENT_ACK (R240) -/
def State.presentAck (s : State) : State := s.setDirty false

/-- QUIT (R216): at any time, whatever the run state (log 6). -/
def State.quit (s : State) : State := s.stop .quit .quit 0 0

/-! ## LOAD -/

/-- The state after a LOAD whose image fits (70_reset_and_hazards.md R250, 10_state.md R37). -/
def State.loaded (image : List Byte) (draws : Nat) : State :=
  { State.reset with mem := placeBytes [] Config.progBase image, draws := draws }

/-- The memory with the same 4096 bytes in canonical form. -/
@[irreducible] def Memory.normal (m : Memory) : Memory :=
  (List.range Config.memSize).foldl (fun acc a => acc.write a (m.read a)) []

/-- The state after a LOAD whose image is too long (70_reset_and_hazards.md R251): STATUS is FAULTED
with LOAD_TOO_LARGE, fault_opcode and fault_addr 0 (60_exceptions.md R211); every other item is the
free value `u`. -/
def State.loadFailed (u : State) (draws : Nat) : State :=
  { u with
    mem := u.mem.normal
    status := { u.status with
      state := .faulted, cause := Fault.loadTooLarge.cause
      faultOpcode := 0, faultAddr := Fault.loadTooLarge.addr }
    draws := draws }

/-- LOAD(image, len) with len the image's length (70_reset_and_hazards.md R250-R254; log 13). The only
reset; the state before it does not matter. -/
def State.load (image : List Byte) (s : State) : State :=
  if imageWellFormed image then State.loaded image s.draws
  else State.loadFailed (Config.unspecified s.draws) (s.draws + 1)

/-! ## STEP(r) -/

/-- The meanings, with `r` as the byte Cxnn draws (R241). -/
def execWith (r : Byte) (i : Instr) (s : State) : Host.Outcome State Fault Refusal :=
  match i with
  | .rnd x nn => execRndWith r x nn s
  | i => exec i s

/-- STEP(r) (R231): `step` with the host's byte in place of the free draw. -/
def stepWith (r : Byte) (s : State) : Host.Outcome State Fault Refusal :=
  fetchDecodeExecute (execWith r) s

/-! ## The transactions -/

/-- What the host can do (R230). A key index of 16 or more cannot be named (R235). -/
inductive Transaction where
  | load (image : List Byte)
  | step (r : Byte)
  | tick
  | keyDown (k : Key)
  | keyUp (k : Key)
  | presentAck
  | quit
deriving DecidableEq, Repr

/-- Apply one transaction, atomically (R230). -/
def transact : Transaction → State → Host.Outcome State Fault Refusal
  | .load image, s => .next (s.load image)
  | .step r, s => stepWith r s
  | .tick, s => .next s.tick
  | .keyDown k, s => .next (s.keyDown k)
  | .keyUp k, s => .next (s.keyUp k)
  | .presentAck, s => .next s.presentAck
  | .quit, s => .next s.quit

/-- Apply transactions in the host's order. A claim about every list holds for every TICK_POLICY
(R237; log 7). -/
def runTransactions : List Transaction → State → Host.Outcome State Fault Refusal
  | [], s => .next s
  | t :: ts, s =>
    match transact t s with
    | .next s' => runTransactions ts s'
    | .fault f => .fault f
    | .refused r => .refused r

/-! ## Outputs, readable at any time (R230) -/

/-- SOUND_ACTIVE: ST > 0 (R238). -/
def State.soundActive (s : State) : Bool := decide (0 < s.st.toNat)

/-- The framebuffer output, column x and row y, and the dirty flag (R239). -/
def State.display (s : State) (y : Fin 32) (x : Fin 64) : Bool × Bool := (s.fb.pixel y x, s.dirty)

end Machine

end Sys2Proof
end

