-- ==== Sys2Proof/Safety.lean ====
section
/-! DEFINITION. What claims are stated in: the run states grouped, a step that reports a fault, the
invariants of the CORE, and what a state keeps of another. -/

namespace Sys2Proof.Machine

/-! ## Run states (60_exceptions.md R215, R247, R248) -/

/-- The run has not ended: RUNNING or WAITING_KEY. -/
abbrev State.live (s : State) : Prop :=
  s.status.state = .running ∨ s.status.state = .waitingKey

/-- The run has ended: HALTED, FAULTED or QUIT (R248). -/
abbrev State.stopped (s : State) : Prop :=
  s.status.state = .halted ∨ s.status.state = .faulted ∨ s.status.state = .quit

/-- "FAULTED is an error end" (R215). -/
abbrev State.faulted (s : State) : Prop := s.status.state = .faulted

/-- The reason a FAULTED state records, and nothing for any other (R211, R215). -/
def State.fault? (s : State) : Option Fault :=
  match s.status.state, s.status.cause with
  | .faulted, .stackOverflow => some .stackOverflow
  | .faulted, .stackUnderflow => some .stackUnderflow
  | .faulted, .memRange => some (.memRange s.status.faultAddr.toNat)
  | .faulted, .fontWrite => some (.fontWrite s.status.faultAddr.toNat)
  | .faulted, .keyRange => some (.keyRange (s.status.faultAddr.setWidth 8))
  | .faulted, .loadTooLarge => some .loadTooLarge
  | _, _ => none

/-- An outcome with a next state that is FAULTED reported as a fault: "a model reports it as a fault"
(R215). -/
def reported : Host.Outcome State Fault Refusal → Host.Outcome State Fault Refusal
  | .next t =>
    match t.fault? with
    | some f => .fault f
    | none => .next t
  | .fault f => .fault f
  | .refused r => .refused r

/-- `step` that reports its fault (R215). -/
def reportStep (s : State) : Host.Outcome State Fault Refusal := reported (step s)

/-- A transaction that reports its fault, STEP(r) and LOAD among them (R215). -/
def reportTransact (a : Transaction) (s : State) : Host.Outcome State Fault Refusal :=
  reported (transact a s)

/-- A list of transactions that ends at the first fault and reports it (R215): what a later QUIT or LOAD
would write over STATUS cannot hide it. -/
def reportTransactions : List Transaction → State → Host.Outcome State Fault Refusal
  | [], s => .next s
  | a :: as, s =>
    match reportTransact a s with
    | .next t => reportTransactions as t
    | .fault f => .fault f
    | .refused r => .refused r

/-- A list of transactions that completes, in whose every state, the first and the last among them, the
machine is not FAULTED: the premise "no fault" of R215. -/
def runsSafely : List Transaction → State → Prop
  | [], s => ¬ s.faulted
  | a :: as, s => ¬ s.faulted ∧ ∃ t, transact a s = .next t ∧ runsSafely as t

/-! ## Invariants -/

/-- "addresses 0x000–0x04F hold a fixed 80-byte built-in glyph font" (20_memory.md R52). -/
def State.fontIntact (s : State) : Prop := ∀ a < Config.fontSize, s.mem.read a = Config.font a

/-- No pc a rule can give exceeds 0x10FE, and no stack entry exceeds 0x1000 (10_state.md R24). -/
def State.pcBounded (s : State) : Prop :=
  s.pc.toNat ≤ 0x10FE ∧ ∀ (j : Nat) (h : j < 16), s.stack[j].toNat ≤ 0x1000

/-- STATUS while the run has not ended: no cause and no fault fields, and wait_x 0 unless a key is
awaited (10_state.md R33, 60_exceptions.md R211, R233). -/
def State.statusConsistent (s : State) : Prop :=
  (s.live → s.status.cause = .none ∧ s.status.faultPc = 0 ∧ s.status.faultOpcode = 0 ∧
    s.status.faultAddr = 0) ∧
  (s.status.state = .running → s.status.waitX = 0)

/-- The invariant every transaction keeps: MEM is in canonical form, and as long as the run has not
ended the font, the pc, the stack and STATUS are as the rules leave them. (A failed LOAD leaves
everything but STATUS unspecified, 70_reset_and_hazards.md R251, and ends the run.) -/
structure State.Inv (s : State) : Prop where
  memWf : s.mem.wf
  font : s.live → s.fontIntact
  pcBound : s.live → s.pcBounded
  statusOk : s.statusConsistent

/-! ## The state after LOAD -/

/-- The table of 10_state.md R37: the value of every piece of state after LOAD of `image`. -/
structure State.isAfterLoad (t : State) (image : List Byte) : Prop where
  font : ∀ a < 0x50, t.mem.read a = Config.font a
  gap : ∀ a, 0x50 ≤ a → a < 0x200 → t.mem.read a = 0
  program : ∀ (k : Nat) (h : k < image.length), t.mem.read (0x200 + k) = image[k]
  rest : ∀ a, 0x200 + image.length ≤ a → a < 0x1000 → t.mem.read a = 0
  v : ∀ r, t.getV r = 0
  i : t.i = 0
  pc : t.pc = 0x200
  stack : ∀ (j : Nat) (h : j < 16), t.stack[j] = 0
  sp : t.sp.val = 0
  timers : t.dt = 0 ∧ t.st = 0
  fb : ∀ y x, t.fb.pixel y x = false
  dirty : t.dirty = false
  key : ∀ k, t.getKey k = false
  status : t.status.state = .running ∧ t.status.waitX = 0 ∧ t.status.cause = .none ∧
    t.status.faultPc = 0 ∧ t.status.faultOpcode = 0 ∧ t.status.faultAddr = 0

/-! ## What one state keeps of another, for frames -/

/-- Every byte of MEM reads as before. -/
def State.keepsMem (s t : State) : Prop := ∀ a, t.mem.read a = s.mem.read a

/-- Every byte of MEM outside `a, …, a + n - 1` reads as before. -/
def State.keepsMemOutside (s t : State) (a n : Nat) : Prop :=
  ∀ b, b < a ∨ a + n ≤ b → t.mem.read b = s.mem.read b

/-- Every V register outside `ws` is unchanged. -/
def State.keepsVExcept (s t : State) (ws : List Reg) : Prop :=
  ∀ r, r ∉ ws → t.getV r = s.getV r

/-- STACK and SP are unchanged. -/
def State.keepsStack (s t : State) : Prop := t.stack = s.stack ∧ t.sp = s.sp

/-- DT and ST are unchanged. -/
def State.keepsTimers (s t : State) : Prop := t.dt = s.dt ∧ t.st = s.st

/-- FB and DIRTY are unchanged. -/
def State.keepsScreen (s t : State) : Prop := t.fb = s.fb ∧ t.dirty = s.dirty

/-- KEY and STATUS are unchanged. -/
def State.keepsKeysAndStatus (s t : State) : Prop := t.key = s.key ∧ t.status = s.status

/-- Everything but pc and the V registers `ws` is unchanged. -/
structure State.keepsAllButV (s t : State) (ws : List Reg) : Prop where
  v : s.keepsVExcept t ws
  i : t.i = s.i
  mem : s.keepsMem t
  stack : s.keepsStack t
  timers : s.keepsTimers t
  screen : s.keepsScreen t
  rest : s.keepsKeysAndStatus t

/-- Everything but pc and I is unchanged. -/
structure State.keepsAllButI (s t : State) : Prop where
  v : s.keepsVExcept t []
  mem : s.keepsMem t
  stack : s.keepsStack t
  timers : s.keepsTimers t
  screen : s.keepsScreen t
  rest : s.keepsKeysAndStatus t

/-- Everything but pc, SP and STACK is unchanged. -/
structure State.keepsAllButStack (s t : State) : Prop where
  v : s.keepsVExcept t []
  i : t.i = s.i
  mem : s.keepsMem t
  timers : s.keepsTimers t
  screen : s.keepsScreen t
  rest : s.keepsKeysAndStatus t

/-- Everything but pc and the bytes `a, …, a + n - 1` of MEM is unchanged. -/
structure State.keepsAllButMem (s t : State) (a n : Nat) : Prop where
  v : s.keepsVExcept t []
  i : t.i = s.i
  mem : s.keepsMemOutside t a n
  stack : s.keepsStack t
  timers : s.keepsTimers t
  screen : s.keepsScreen t
  rest : s.keepsKeysAndStatus t

/-- Everything but pc, FB, DIRTY and the V registers `ws` is unchanged. -/
structure State.keepsAllButScreen (s t : State) (ws : List Reg) : Prop where
  v : s.keepsVExcept t ws
  i : t.i = s.i
  mem : s.keepsMem t
  stack : s.keepsStack t
  timers : s.keepsTimers t
  rest : s.keepsKeysAndStatus t

/-- Everything but pc, DT and ST is unchanged. -/
structure State.keepsAllButTimers (s t : State) : Prop where
  v : s.keepsVExcept t []
  i : t.i = s.i
  mem : s.keepsMem t
  stack : s.keepsStack t
  screen : s.keepsScreen t
  rest : s.keepsKeysAndStatus t

/-- `s` with STATUS(FAULTED, cause, pc, opcode, addr) and nothing else changed: the state
60_exceptions.md R214 says a fault leaves. -/
def State.faultedAs (s : State) (c : Cause) (opcode addr : Nat) : State :=
  { s with status :=
      { s.status with
        state := .faulted, cause := c, faultPc := s.pc
        faultOpcode := BitVec.ofNat 16 opcode, faultAddr := BitVec.ofNat 16 addr } }

end Sys2Proof.Machine
end

