-- ==== Sys2Proof/Certificates/Slice0/Obligations.lean ====
section
/-! DEFINITION. The statements for the provers. Each docstring names the rules of spec/ it is read from.
In every statement about `exec`, the pc of the state is the address of the instruction. -/

open Sys2Proof Sys2Proof.Machine

/-! ## Encoding, fetch and decode -/

/-- Decoding the two bytes of an instruction gives the instruction back, for every instruction with
every operand (30_encoding.md R76, R77). -/
def Obligations.DecodeOfEncodeIsTheInstruction : Prop :=
  ∀ i : Instr, i.wellFormed = true ∧ decode (encode i) = .ok i

/-- A recognized word is the word of the instruction it decodes to: no word has two spellings, no bit
is dropped (30_encoding.md R71, R77). -/
def Obligations.RecognizedWordIsItsInstructionsWord : Prop :=
  ∀ (op : Word) (i : Instr), decodeWord op = .ok i → encodeWord i = op

/-- R77: at most one row of the opcode map matches any word. -/
def Obligations.AtMostOneRowMatches : Prop :=
  ∀ op : Word, (opcodeTable.filter fun r => op &&& r.mask == r.pat).length ≤ 1

/-- R78: the words no row matches are those of the six listed sets. -/
def Obligations.UnrecognizedWordsAreTheListedOnes : Prop :=
  ∀ op : Word, decodeWord op = .error .unrecognized ↔
    ((op.toNat < 0x1000 ∧ op.toNat ≠ 0x00E0 ∧ op.toNat ≠ 0x00EE) ∨
     (op.toNat / 4096 = 0x5 ∧ op.toNat % 16 ≠ 0) ∨
     (op.toNat / 4096 = 0x8 ∧ op.toNat % 16 ∈ [0x8, 0x9, 0xA, 0xB, 0xC, 0xD, 0xF]) ∨
     (op.toNat / 4096 = 0x9 ∧ op.toNat % 16 ≠ 0) ∨
     (op.toNat / 4096 = 0xE ∧ op.toNat % 256 ∉ [0x9E, 0xA1]) ∨
     (op.toNat / 4096 = 0xF ∧
       op.toNat % 256 ∉ [0x07, 0x0A, 0x15, 0x18, 0x1E, 0x29, 0x33, 0x55, 0x65]))

/-- One word of each family (the leading digit 0 to F), written out from the patterns of R76, decodes to
its instruction, and 5121, which no row matches, is UNRECOGNIZED. -/
def Obligations.SampleWordsDecode : Prop :=
  decode [0x00, 0xE0] = .ok .cls ∧ decode [0x12, 0x34] = .ok (.jp 0x234) ∧
  decode [0x2A, 0xBC] = .ok (.call 0xABC) ∧ decode [0x33, 0x10] = .ok (.seImm 3 0x10) ∧
  decode [0x43, 0x11] = .ok (.sneImm 3 0x11) ∧ decode [0x51, 0x20] = .ok (.seReg 1 2) ∧
  decode [0x6A, 0x42] = .ok (.ldImm 0xA 0x42) ∧ decode [0x72, 0xFF] = .ok (.addImm 2 0xFF) ∧
  decode [0x81, 0x24] = .ok (.addReg 1 2) ∧ decode [0x91, 0x20] = .ok (.sneReg 1 2) ∧
  decode [0xA3, 0x01] = .ok (.ldI 0x301) ∧ decode [0xBF, 0xFE] = .ok (.jpV0 0xFFE) ∧
  decode [0xC3, 0x0F] = .ok (.rnd 3 0x0F) ∧ decode [0xD0, 0x15] = .ok (.drw 0 1 5) ∧
  decode [0xE5, 0xA1] = .ok (.sknp 5) ∧ decode [0xF2, 0x55] = .ok (.ldMemV 2) ∧
  decode [0x51, 0x21] = .error .unrecognized

/-- R73: the bytes at pc and pc + 1, composed high byte first, are the opcode; when it decodes to `i`, a
STEP is the execution of `i` at this state, with the host's random byte or with the free one. `exec`
makes fetch's advance of pc itself (log 8). -/
def Obligations.StepRunsTheDecodedInstruction : Prop :=
  ∀ (s : State) (op : Word) (i : Instr), s.status.state = .running → s.pc.toNat < 0xFFF →
    op.toNat = (s.mem.read s.pc.toNat).toNat * 256 + (s.mem.read (s.pc.toNat + 1)).toNat →
    decodeWord op = .ok i →
    step s = exec i s ∧ ∀ r, stepWith r s = execWith r i s

/-- R79: an UNRECOGNIZED word advances pc by 2 and changes nothing else. -/
def Obligations.UnrecognizedWordOnlyAdvancesPc : Prop :=
  ∀ (s : State) (op : Word), s.status.state = .running → s.pc.toNat < 0xFFF →
    op.toNat = (s.mem.read s.pc.toNat).toNat * 256 + (s.mem.read (s.pc.toNat + 1)).toNat →
    decodeWord op = .error .unrecognized →
    step s = .next { s with pc := s.pc + 2 } ∧ ∀ r, stepWith r s = .next { s with pc := s.pc + 2 }

/-- R212: a fetch at pc ≥ 4096 halts. -/
def Obligations.FetchBeyondMemoryHalts : Prop :=
  ∀ s : State, s.status.state = .running → 4096 ≤ s.pc.toNat →
    ∃ t, step s = .next t ∧
      t = { s with status := t.status } ∧ t.status.state = .halted ∧
      t.status.cause.code = 1 ∧ t.status.faultPc = s.pc ∧ t.status.faultOpcode = 0 ∧
      t.status.faultAddr = s.pc ∧ t.status.waitX = s.status.waitX

/-- R74, second case: a fetch at 0xFFF raises MEM_RANGE with fault_addr 0x1000 and does not advance
pc. -/
def Obligations.FetchAtLastByteFaults : Prop :=
  ∀ s : State, s.status.state = .running → s.pc = 0xFFF →
    step s = .next (s.faultedAs .memRange 0 0x1000)

/-- R232: in any state but RUNNING a STEP changes nothing, and of the transactions only KEY_DOWN lifts
the hold of a machine that awaits a key; QUIT and LOAD (R250) end it. -/
def Obligations.HeldAndStoppedMachinesIgnoreStep : Prop :=
  (∀ (s : State) (r : Byte), s.status.state ≠ .running →
    step s = .next s ∧ stepWith r s = .next s) ∧
  ∀ (s t : State) (a : Transaction), s.status.state = .waitingKey → transact a s = .next t →
    t.status.state ≠ .waitingKey →
    (∃ k, a = .keyDown k) ∨ a = .quit ∨ ∃ image, a = .load image

/-- The model's preparation of a word (log 3), for the host: the next step runs the instruction of the
word, and where the state could fetch already only the two bytes at pc change. -/
def Obligations.FetchWordRunsNext : Prop :=
  ∀ (s : State) (w : Nat) (i : Instr), s.mem.wf → decodeTableWord 16 w = some i →
    step (s.withFetchWord 16 w) = exec i (s.withFetchWord 16 w) ∧
    (s.status.state = .running → s.pc.toNat < 0xFFF →
      s.withFetchWord 16 w = { s with mem := (s.withFetchWord 16 w).mem } ∧
      s.keepsMemOutside (s.withFetchWord 16 w) s.pc.toNat 2)

/-! ## Control transfer and skips -/

/-- R101, R107: the two jumps. -/
def Obligations.JumpsSetPc : Prop :=
  ∀ (s : State) (nnn : Imm12),
    (∃ t, exec (.jp nnn) s = .next t ∧ t.pc.toNat = nnn.toNat ∧ s.keepsAllButV t []) ∧
    (∃ t, exec (.jpV0 nnn) s = .next t ∧ t.pc.toNat = (s.getV 0).toNat + nnn.toNat ∧
      s.keepsAllButV t [])

/-- R102: with SP < 16 the address after the call is pushed and pc is nnn; with SP = 16 the call faults
and nothing but STATUS changes. -/
def Obligations.CallPushesReturnAddress : Prop :=
  ∀ (s : State) (nnn : Imm12),
    (∀ h : s.sp.val < 16, ∃ t, exec (.call nnn) s = .next t ∧
      t.stack[s.sp.val] = s.pc + 2 ∧ t.sp.val = s.sp.val + 1 ∧ t.pc.toNat = nnn.toNat ∧
      (∀ (j : Nat) (hj : j < 16), j ≠ s.sp.val → t.stack[j] = s.stack[j]) ∧
      s.keepsAllButStack t) ∧
    (s.sp.val = 16 →
      exec (.call nnn) s = .next (s.faultedAs .stackOverflow (0x2000 + nnn.toNat) 16))

/-- R100: with SP > 0 pc is the popped entry, which keeps its value; with SP = 0 the return faults and
nothing but STATUS changes. -/
def Obligations.ReturnPopsIntoPc : Prop :=
  ∀ s : State,
    (∀ h : 0 < s.sp.val, ∃ t, exec .ret s = .next t ∧
      t.sp.val = s.sp.val - 1 ∧ t.pc = s.stack[s.sp.val - 1] ∧ t.stack = s.stack ∧
      s.keepsAllButStack t) ∧
    (s.sp.val = 0 → exec .ret s = .next (s.faultedAs .stackUnderflow 0x00EE 0))

/-- The source's property as 90_conflicts.md C10 corrects it: a call to a 00EE comes back to the word
after the call, with nothing changed but the stack entry used. -/
def Obligations.CallThenReturnComesBack : Prop :=
  ∀ (s : State) (nnn : Imm12), s.status.state = .running → s.pc.toNat < 0xFFF →
    decode [s.mem.read s.pc.toNat, s.mem.read (s.pc.toNat + 1)] = .ok (.call nnn) →
    nnn.toNat < 0xFFF → s.mem.read nnn.toNat = 0x00 → s.mem.read (nnn.toNat + 1) = 0xEE →
    (h : s.sp.val < 16) →
    ∃ t u, step s = .next t ∧ step t = .next u ∧
      u = { s with pc := s.pc + 2, stack := s.stack.set s.sp.val (s.pc + 2) }

/-- R103-R106: each skip adds a further 2 to pc exactly when its condition holds. -/
def Obligations.SkipsAddTwoWhenConditionHolds : Prop :=
  ∀ (s : State) (x y : Reg) (nn : Byte),
    (∃ t, exec (.seImm x nn) s = .next t ∧ s.keepsAllButV t [] ∧
      t.pc = if s.getV x = nn then s.pc + 4 else s.pc + 2) ∧
    (∃ t, exec (.sneImm x nn) s = .next t ∧ s.keepsAllButV t [] ∧
      t.pc = if s.getV x ≠ nn then s.pc + 4 else s.pc + 2) ∧
    (∃ t, exec (.seReg x y) s = .next t ∧ s.keepsAllButV t [] ∧
      t.pc = if s.getV x = s.getV y then s.pc + 4 else s.pc + 2) ∧
    (∃ t, exec (.sneReg x y) s = .next t ∧ s.keepsAllButV t [] ∧
      t.pc = if s.getV x ≠ s.getV y then s.pc + 4 else s.pc + 2)

/-! ## Register loads, arithmetic and logic -/

/-- R120, R122: loads of an immediate and of a register; VF is an ordinary register. -/
def Obligations.LoadsWriteOnlyVx : Prop :=
  ∀ (s : State) (x y : Reg) (nn : Byte),
    (∃ t, exec (.ldImm x nn) s = .next t ∧ t.getV x = nn ∧ t.pc = s.pc + 2 ∧
      s.keepsAllButV t [x]) ∧
    (∃ t, exec (.ldReg x y) s = .next t ∧ t.getV x = s.getV y ∧ t.pc = s.pc + 2 ∧
      s.keepsAllButV t [x])

/-- R121: the sum modulo 256, and no flag. -/
def Obligations.AddImmediateWrapsWithoutFlag : Prop :=
  ∀ (s : State) (x : Reg) (nn : Byte),
    ∃ t, exec (.addImm x nn) s = .next t ∧
      (t.getV x).toNat = ((s.getV x).toNat + nn.toNat) % 256 ∧ t.pc = s.pc + 2 ∧
      s.keepsAllButV t [x]

/-- R123-R125, bit by bit: no flag. -/
def Obligations.LogicIsBitwiseWithoutFlag : Prop :=
  ∀ (s : State) (x y : Reg),
    (∃ t, exec (.orReg x y) s = .next t ∧ t.pc = s.pc + 2 ∧ s.keepsAllButV t [x] ∧
      ∀ k, (t.getV x).getLsbD k = ((s.getV x).getLsbD k || (s.getV y).getLsbD k)) ∧
    (∃ t, exec (.andReg x y) s = .next t ∧ t.pc = s.pc + 2 ∧ s.keepsAllButV t [x] ∧
      ∀ k, (t.getV x).getLsbD k = ((s.getV x).getLsbD k && (s.getV y).getLsbD k)) ∧
    (∃ t, exec (.xorReg x y) s = .next t ∧ t.pc = s.pc + 2 ∧ s.keepsAllButV t [x] ∧
      ∀ k, (t.getV x).getLsbD k = ((s.getV x).getLsbD k ^^ (s.getV y).getLsbD k))

/-- R126: the sum modulo 256 in Vx, then the carry in VF, so that VF holds the carry when x = F. -/
def Obligations.AddSetsCarry : Prop :=
  ∀ (s : State) (x y : Reg),
    ∃ t, exec (.addReg x y) s = .next t ∧
      (x ≠ 0xF → (t.getV x).toNat = ((s.getV x).toNat + (s.getV y).toNat) % 256) ∧
      (t.getV 0xF = if 255 < (s.getV x).toNat + (s.getV y).toNat then 1 else 0) ∧
      t.pc = s.pc + 2 ∧ s.keepsAllButV t [x, 0xF]

/-- R127, R129: the difference modulo 256 in Vx, then not-borrow in VF. -/
def Obligations.SubtractSetsNotBorrow : Prop :=
  ∀ (s : State) (x y : Reg),
    (∃ t, exec (.subReg x y) s = .next t ∧
      (x ≠ 0xF → ((t.getV x).toNat : Int) = ((s.getV x).toNat - (s.getV y).toNat : Int) % 256) ∧
      (t.getV 0xF = if (s.getV x).toNat < (s.getV y).toNat then 0 else 1) ∧
      t.pc = s.pc + 2 ∧ s.keepsAllButV t [x, 0xF]) ∧
    (∃ t, exec (.subnReg x y) s = .next t ∧
      (x ≠ 0xF → ((t.getV x).toNat : Int) = ((s.getV y).toNat - (s.getV x).toNat : Int) % 256) ∧
      (t.getV 0xF = if (s.getV y).toNat < (s.getV x).toNat then 0 else 1) ∧
      t.pc = s.pc + 2 ∧ s.keepsAllButV t [x, 0xF])

/-- R128, R130: shifts by one, the dropped bit in VF, whatever the y field. -/
def Obligations.ShiftsMoveDroppedBitToFlag : Prop :=
  ∀ (s : State) (x y : Reg),
    (∃ t, exec (.shr x y) s = .next t ∧
      (x ≠ 0xF → (t.getV x).toNat = (s.getV x).toNat / 2) ∧
      (t.getV 0xF).toNat = (s.getV x).toNat % 2 ∧
      t.pc = s.pc + 2 ∧ s.keepsAllButV t [x, 0xF]) ∧
    (∃ t, exec (.shl x y) s = .next t ∧
      (x ≠ 0xF → (t.getV x).toNat = (s.getV x).toNat * 2 % 256) ∧
      (t.getV 0xF).toNat = (s.getV x).toNat / 128 ∧
      t.pc = s.pc + 2 ∧ s.keepsAllButV t [x, 0xF])

/-- R131: for every byte r the STEP supplies, Vx is r AND nn; `exec` draws some byte. -/
def Obligations.RandomIsMasked : Prop :=
  ∀ (s : State) (x : Reg) (nn : Byte),
    (∀ r, ∃ t, execWith r (.rnd x nn) s = .next t ∧ t.getV x = r &&& nn ∧ t.pc = s.pc + 2 ∧
      s.keepsAllButV t [x]) ∧
    (∃ r t, exec (.rnd x nn) s = .next t ∧ t.getV x = r &&& nn ∧ t.pc = s.pc + 2 ∧
      s.keepsAllButV t [x])

/-- R241: the random byte reaches no STEP but one of Cxnn, and `step` is the STEP of some byte. -/
def Obligations.RandomByteReachesOnlyRnd : Prop :=
  (∀ (s : State) (r r' : Byte),
    (∀ x nn, decode [s.mem.read s.pc.toNat, s.mem.read (s.pc.toNat + 1)] ≠ .ok (.rnd x nn)) →
    stepWith r s = stepWith r' s) ∧
  ∀ s : State, ∃ r, step s = stepWith r s

/-! ## Index register and memory transfers -/

/-- R150-R152: the three instructions that write I. -/
def Obligations.IndexWrites : Prop :=
  ∀ (s : State) (nnn : Imm12) (x : Reg),
    (∃ t, exec (.ldI nnn) s = .next t ∧ t.i.toNat = nnn.toNat ∧ t.pc = s.pc + 2 ∧
      s.keepsAllButI t) ∧
    (∃ t, exec (.addI x) s = .next t ∧ t.i.toNat = (s.i.toNat + (s.getV x).toNat) % 65536 ∧
      t.pc = s.pc + 2 ∧ s.keepsAllButI t) ∧
    (∃ t, exec (.ldF x) s = .next t ∧ t.i.toNat = (s.getV x).toNat * 5 ∧
      t.pc = s.pc + 2 ∧ s.keepsAllButI t)

/-- R153: hundreds, tens and ones of Vx at I, I + 1, I + 2 where all three are in the writable part of
MEM; else the fault of the lowest address that has one, and nothing but STATUS changes. -/
def Obligations.BcdStoresThreeDigits : Prop :=
  ∀ (s : State) (x : Reg), s.mem.wf →
    (0x50 ≤ s.i.toNat → s.i.toNat + 2 < 4096 →
      ∃ t, exec (.ldB x) s = .next t ∧
        (t.mem.read s.i.toNat).toNat = (s.getV x).toNat / 100 ∧
        (t.mem.read (s.i.toNat + 1)).toNat = (s.getV x).toNat / 10 % 10 ∧
        (t.mem.read (s.i.toNat + 2)).toNat = (s.getV x).toNat % 10 ∧
        t.pc = s.pc + 2 ∧ s.keepsAllButMem t s.i.toNat 3) ∧
    (s.i.toNat < 0x50 →
      exec (.ldB x) s = .next (s.faultedAs .fontWrite (0xF033 + x.val * 256) s.i.toNat)) ∧
    (4096 ≤ s.i.toNat + 2 →
      exec (.ldB x) s =
        .next (s.faultedAs .memRange (0xF033 + x.val * 256) (max s.i.toNat 0x1000)))

/-- R154: V0..Vx at I..I + x, I unchanged, where the whole run is in the writable part of MEM; else the
fault of the lowest address that has one, and nothing but STATUS changes. -/
def Obligations.StoreWritesRegisterRange : Prop :=
  ∀ (s : State) (x : Reg), s.mem.wf →
    (0x50 ≤ s.i.toNat → s.i.toNat + x.val < 4096 →
      ∃ t, exec (.ldMemV x) s = .next t ∧
        (∀ k : Reg, k.val ≤ x.val → t.mem.read (s.i.toNat + k.val) = s.getV k) ∧
        t.pc = s.pc + 2 ∧ s.keepsAllButMem t s.i.toNat (x.val + 1)) ∧
    (s.i.toNat < 0x50 →
      exec (.ldMemV x) s = .next (s.faultedAs .fontWrite (0xF055 + x.val * 256) s.i.toNat)) ∧
    (4096 ≤ s.i.toNat + x.val →
      exec (.ldMemV x) s =
        .next (s.faultedAs .memRange (0xF055 + x.val * 256) (max s.i.toNat 0x1000)))

/-- R155: V0..Vx from MEM[I..I + x], I unchanged, where the whole run is in MEM, the font included;
else a fault at the lowest address outside, and nothing but STATUS changes. -/
def Obligations.LoadReadsRegisterRange : Prop :=
  ∀ (s : State) (x : Reg),
    (s.i.toNat + x.val < 4096 →
      ∃ t, exec (.ldVMem x) s = .next t ∧
        (∀ k : Reg, k.val ≤ x.val → t.getV k = s.mem.read (s.i.toNat + k.val)) ∧
        t.pc = s.pc + 2 ∧ s.keepsAllButV t ((List.finRange 16).filter fun k => k.val ≤ x.val)) ∧
    (4096 ≤ s.i.toNat + x.val →
      exec (.ldVMem x) s =
        .next (s.faultedAs .memRange (0xF065 + x.val * 256) (max s.i.toNat 0x1000)))

/-- R66: a word stored by Fx55 is what the next fetch of its address decodes. -/
def Obligations.StoredWordIsFetched : Prop :=
  ∀ (s : State) (x : Reg) (i : Instr), s.mem.wf → s.status.state = .running →
    0x50 ≤ s.i.toNat → 1 ≤ x.val → s.i.toNat + x.val < 4096 →
    decode [s.getV 0, s.getV 1] = .ok i →
    ∃ t, exec (.ldMemV x) s = .next t ∧ step (t.setPc s.i) = exec i (t.setPc s.i)

/-! ## Framebuffer -/

/-- R170: every pixel cleared, DIRTY set. -/
def Obligations.ClearBlanksEveryPixel : Prop :=
  ∀ s : State, ∃ t, exec .cls s = .next t ∧ (∀ y x, t.fb.pixel y x = false) ∧ t.dirty = true ∧
    t.pc = s.pc + 2 ∧ s.keepsAllButScreen t []

/-- R171-R174, R176. Where the bytes are in MEM, or there are no rows: bit 7 - c of the byte of row r is
XORed into column (x0 + c) mod 64 of row (y0 + r) mod 32; no other pixel changes; VF is 1 when a pixel
went from set to unset, else 0; DIRTY is set. Else a fault at the lowest address outside MEM, and nothing
but STATUS changes. -/
def Obligations.DrawXorsSpriteWithCollision : Prop :=
  ∀ (s : State) (x y : Reg) (n : Imm4),
    (n = 0 ∨ s.i.toNat + n.toNat ≤ 4096 →
      ∃ t, exec (.drw x y n) s = .next t ∧
        (∀ (r c : Nat) (py : Fin 32) (px : Fin 64), r < n.toNat → c < 8 →
          py.val = ((s.getV y).toNat + r) % 32 → px.val = ((s.getV x).toNat + c) % 64 →
          t.fb.pixel py px =
            (s.fb.pixel py px ^^ (s.mem.read (s.i.toNat + r)).getLsbD (7 - c))) ∧
        (∀ (py : Fin 32) (px : Fin 64),
          (∀ r c : Nat, r < n.toNat → c < 8 →
            ¬ (py.val = ((s.getV y).toNat + r) % 32 ∧ px.val = ((s.getV x).toNat + c) % 64)) →
          t.fb.pixel py px = s.fb.pixel py px) ∧
        (t.getV 0xF = 1 ∨ t.getV 0xF = 0) ∧
        (t.getV 0xF = 1 ↔ ∃ (py : Fin 32) (px : Fin 64),
          s.fb.pixel py px = true ∧ t.fb.pixel py px = false) ∧
        t.dirty = true ∧ t.pc = s.pc + 2 ∧ s.keepsAllButScreen t [0xF]) ∧
    (n ≠ 0 → 4096 < s.i.toNat + n.toNat →
      exec (.drw x y n) s = .next (s.faultedAs .memRange
        (0xD000 + x.val * 256 + y.val * 16 + n.toNat) (max s.i.toNat 0x1000)))

/-- R175's round trip: drawing a sprite twice at one place restores FB; the coordinates must not be in
VF, which the first draw writes. The second draw collides exactly when the first turned a pixel on: on a
clear screen, whenever the sprite has a set bit. (R175 says so of every screen; R171 and R174 do not:
log 15.) -/
def Obligations.DrawTwiceRestoresScreen : Prop :=
  ∀ (s : State) (x y : Reg) (n : Imm4), n = 0 ∨ s.i.toNat + n.toNat ≤ 4096 → x ≠ 0xF → y ≠ 0xF →
    ∃ t u, exec (.drw x y n) s = .next t ∧ exec (.drw x y n) t = .next u ∧ u.fb = s.fb ∧
      (u.getV 0xF = 1 ↔ ∃ (py : Fin 32) (px : Fin 64),
        s.fb.pixel py px = false ∧ t.fb.pixel py px = true) ∧
      ((∀ py px, s.fb.pixel py px = false) →
        (u.getV 0xF = 1 ↔ ∃ r < n.toNat, s.mem.read (s.i.toNat + r) ≠ 0))

/-! ## Keypad and timers -/

/-- R190, R191: the skip follows the state of key Vx; a Vx that names no key faults. -/
def Obligations.KeySkipsFollowKeypad : Prop :=
  ∀ (s : State) (x : Reg),
    (∀ h : (s.getV x).toNat < 16,
      (∃ t, exec (.skp x) s = .next t ∧ s.keepsAllButV t [] ∧
        t.pc = if s.getKey ⟨(s.getV x).toNat, h⟩ = true then s.pc + 4 else s.pc + 2) ∧
      (∃ t, exec (.sknp x) s = .next t ∧ s.keepsAllButV t [] ∧
        t.pc = if s.getKey ⟨(s.getV x).toNat, h⟩ = false then s.pc + 4 else s.pc + 2)) ∧
    (16 ≤ (s.getV x).toNat →
      exec (.skp x) s =
        .next (s.faultedAs .keyRange (0xE09E + x.val * 256) (s.getV x).toNat) ∧
      exec (.sknp x) s =
        .next (s.faultedAs .keyRange (0xE0A1 + x.val * 256) (s.getV x).toNat))

/-- R192, R194, R195: reading and setting the timers; SOUND_ACTIVE follows ST at once. -/
def Obligations.TimerTransfers : Prop :=
  ∀ (s : State) (x : Reg),
    (∃ t, exec (.ldVxDT x) s = .next t ∧ t.getV x = s.dt ∧ t.pc = s.pc + 2 ∧
      s.keepsAllButV t [x]) ∧
    (∃ t, exec (.ldDTVx x) s = .next t ∧ t.dt = s.getV x ∧ t.st = s.st ∧ t.pc = s.pc + 2 ∧
      s.keepsAllButTimers t) ∧
    (∃ t, exec (.ldSTVx x) s = .next t ∧ t.st = s.getV x ∧ t.dt = s.dt ∧ t.pc = s.pc + 2 ∧
      s.keepsAllButTimers t ∧ (t.soundActive = true ↔ 0 < (s.getV x).toNat))

/-- R193: Fx0A waits with pc past it, whatever keys are down; STEP, KEY_UP and TICK, which act as always,
do not complete the wait; a KEY_DOWN writes the key's index to Vx, marks it down and resumes after the
Fx0A. That of all the transactions only KEY_DOWN, QUIT and LOAD end a wait is
`HeldAndStoppedMachinesIgnoreStep`; KEY_DOWN in every state is `KeyDownMarksAndCompletes`. -/
def Obligations.WaitForKeyCompletesAtKeyDown : Prop :=
  ∀ (s : State) (x : Reg),
    ∃ t, exec (.ldVxK x) s = .next t ∧
      t.status = { s.status with state := .waitingKey, waitX := x } ∧ t.pc = s.pc + 2 ∧
      t.key = s.key ∧ s.keepsVExcept t [] ∧ t.i = s.i ∧ s.keepsMem t ∧ s.keepsStack t ∧
      s.keepsTimers t ∧ s.keepsScreen t ∧
      (∀ r, stepWith r t = .next t) ∧
      (∀ k, ∃ u, transact (.keyUp k) t = .next u ∧ u.status = t.status ∧ u.getKey k = false) ∧
      (∃ u, transact .tick t = .next u ∧ u.status = t.status ∧
        u.dt.toNat = s.dt.toNat - 1 ∧ u.st.toNat = s.st.toNat - 1) ∧
      (∀ k : Key, ∃ u, transact (.keyDown k) t = .next u ∧ (u.getV x).toNat = k.val ∧
        u.getKey k = true ∧ u.status.state = .running ∧ u.status.waitX = 0 ∧ u.pc = t.pc)

/-! ## Stops and host transactions -/

/-- R214 with R211: a STEP that faults changes only STATUS; pc is the instruction's address, the opcode
recorded is the word fetched (0 at fetch), and the cause and address are those of the table. -/
def Obligations.FaultsArePrecise : Prop :=
  ∀ s t : State, s.status.state = .running → step s = .next t → t.status.state = .faulted →
    ∃ (c : Cause) (op addr : Nat), t = s.faultedAs c op addr ∧
      (op = if s.pc.toNat < 0xFFF then
          (s.mem.read s.pc.toNat).toNat * 256 + (s.mem.read (s.pc.toNat + 1)).toNat
        else 0) ∧
      ((c = .stackOverflow ∧ c.code = 2 ∧ s.sp.val = 16 ∧ addr = 16) ∨
       (c = .stackUnderflow ∧ c.code = 3 ∧ s.sp.val = 0 ∧ addr = 0) ∨
       (c = .memRange ∧ c.code = 4 ∧
        (s.pc.toNat = 0xFFF ∧ addr = 0x1000 ∨
          s.pc.toNat < 0xFFF ∧ addr = max s.i.toNat 0x1000)) ∨
       (c = .fontWrite ∧ c.code = 5 ∧ s.i.toNat < 0x50 ∧ addr = s.i.toNat) ∨
       (c = .keyRange ∧ c.code = 6 ∧ ∃ x, 16 ≤ (s.getV x).toNat ∧ addr = (s.getV x).toNat))

/-- R80, R214: a STEP always answers a next state: no word is illegal, and a stop is a state. -/
def Obligations.StepNeverRefuses : Prop :=
  ∀ (s : State) (r : Byte), (∃ t, step s = .next t) ∧ ∃ t, stepWith r s = .next t

/-- R215: the reporting step answers a fault exactly when the STEP ends FAULTED with a cause of the
table, for a machine that was running. -/
def Obligations.ReportStepReportsFaults : Prop :=
  ∀ s t : State, s.status.state = .running → step s = .next t →
    ((∃ f, reportStep s = .fault f ∧ t.status.cause = f.cause ∧ t.status.faultAddr = f.addr) ↔
      t.status.state = .faulted) ∧
    (t.status.state ≠ .faulted → reportStep s = .next t)

/-- R215, R219: once stopped, only LOAD leaves the stopped states; whatever else the host does, the
program-visible state but KEY and the timers stays as it was. -/
def Obligations.OnlyLoadLeavesStoppedStates : Prop :=
  ∀ (ts : List Transaction) (s : State), s.stopped → (∀ image, Transaction.load image ∉ ts) →
    ∃ t, runTransactions ts s = .next t ∧ t.stopped ∧
      t.v = s.v ∧ t.i = s.i ∧ t.pc = s.pc ∧ t.stack = s.stack ∧ t.sp = s.sp ∧
      t.mem = s.mem ∧ t.fb = s.fb

/-- R233: KEY_DOWN in every run state. -/
def Obligations.KeyDownMarksAndCompletes : Prop :=
  ∀ (s : State) (k : Key),
    ∃ t, transact (.keyDown k) s = .next t ∧
      (∀ j, t.getKey j = if j = k then true else s.getKey j) ∧
      (s.status.state = .waitingKey →
        (t.getV s.status.waitX).toNat = k.val ∧ s.keepsVExcept t [s.status.waitX] ∧
        t.status = { s.status with state := .running, waitX := 0 }) ∧
      (s.status.state ≠ .waitingKey → s.keepsVExcept t [] ∧ t.status = s.status) ∧
      t.pc = s.pc ∧ t.i = s.i ∧ s.keepsMem t ∧ s.keepsStack t ∧ s.keepsTimers t ∧ s.keepsScreen t

/-- R234, R236, R240: KEY_UP, TICK and PRESENT_ACK, in every run state. -/
def Obligations.KeyUpTickAndPresentAck : Prop :=
  ∀ (s : State) (k : Key),
    (∃ t, transact (.keyUp k) s = .next t ∧ t = { s with key := t.key } ∧
      ∀ j, t.getKey j = if j = k then false else s.getKey j) ∧
    (∃ t, transact .tick s = .next t ∧ t = { s with dt := t.dt, st := t.st } ∧
      t.dt.toNat = (if 0 < s.dt.toNat then s.dt.toNat - 1 else 0) ∧
      t.st.toNat = (if 0 < s.st.toNat then s.st.toNat - 1 else 0)) ∧
    (∃ t, transact .presentAck s = .next t ∧ t = { s with dirty := false })

/-- R216: QUIT, in every run state (for a machine already stopped: log 6). -/
def Obligations.QuitRecordsStop : Prop :=
  ∀ s : State, ∃ t, transact .quit s = .next t ∧ t = { s with status := t.status } ∧
    t.status.state = .quit ∧ t.status.cause.code = 7 ∧ t.status.faultPc = s.pc ∧
    t.status.faultOpcode = 0 ∧ t.status.faultAddr = 0 ∧ t.status.waitX = s.status.waitX

/-- R37: the state after LOAD of any image that fits, whatever the state before. -/
def Obligations.LoadLeavesTheResetTable : Prop :=
  ∀ (image : List Byte) (s : State), image.length ≤ 3584 →
    ∃ t, transact (.load image) s = .next t ∧ t.isAfterLoad image

/-- The model's choice (log 3): the reset state is that after a LOAD of the empty image. -/
def Obligations.ResetIsTheEmptyLoad : Prop := State.reset.isAfterLoad []

/-- R251: an image of more than 3584 bytes is rejected: STATUS is FAULTED with LOAD_TOO_LARGE and STEP
does nothing. Every other item is free. -/
def Obligations.LoadRejectsTooLargeImage : Prop :=
  ∀ (image : List Byte) (s : State), 3584 < image.length →
    ∃ t, transact (.load image) s = .next t ∧ t.status.state = .faulted ∧
      t.status.cause = .loadTooLarge ∧ t.status.cause.code = 8 ∧
      step t = .next t ∧ ∀ r, stepWith r t = .next t

/-! ## Rules about the whole machine -/

/-- R25: no instruction but Annn, Fx1E and Fx29 writes I. -/
def Obligations.OnlyThreeInstructionsWriteI : Prop :=
  ∀ (i : Instr) (s t : State), exec i s = .next t → t.i ≠ s.i →
    (∃ nnn, i = .ldI nnn) ∨ (∃ x, i = .addI x) ∨ (∃ x, i = .ldF x)

/-- R26: STACK is written only by 2nnn, and only at SP; SP changes only in 2nnn and 00EE. -/
def Obligations.OnlyCallWritesStack : Prop :=
  ∀ (i : Instr) (s t : State), exec i s = .next t →
    (t.stack ≠ s.stack → ∃ nnn, i = .call nnn) ∧
    (t.sp ≠ s.sp → (∃ nnn, i = .call nnn) ∨ i = .ret) ∧
    ∀ (j : Nat) (h : j < 16), j ≠ s.sp.val → t.stack[j] = s.stack[j]

/-- R22, R34: VF changes only in the six flag-setting instructions, or in an instruction that names VF
as its destination. -/
def Obligations.OnlyFlagSettersAndNamedWritesChangeVF : Prop :=
  ∀ (i : Instr) (s t : State), exec i s = .next t → t.getV 0xF ≠ s.getV 0xF →
    (∃ x y, i = .addReg x y ∨ i = .subReg x y ∨ i = .shr x y ∨ i = .subnReg x y ∨ i = .shl x y) ∨
    (∃ x y n, i = .drw x y n) ∨
    (∃ nn, i = .ldImm 0xF nn ∨ i = .addImm 0xF nn ∨ i = .rnd 0xF nn) ∨
    (∃ y, i = .ldReg 0xF y ∨ i = .orReg 0xF y ∨ i = .andReg 0xF y ∨ i = .xorReg 0xF y) ∨
    i = .ldVxDT 0xF ∨ i = .ldVMem 0xF

/-- R60: only Fx33 and Fx55 change MEM, Fx33 in I..I + 2 and Fx55 in I..I + x. -/
def Obligations.OnlyTwoInstructionsWriteMem : Prop :=
  ∀ (i : Instr) (s t : State), s.mem.wf → exec i s = .next t →
    ∀ a, t.mem.read a ≠ s.mem.read a →
      s.i.toNat ≤ a ∧ ((∃ x, i = .ldB x ∧ a ≤ s.i.toNat + 2) ∨
        (∃ x, i = .ldMemV x ∧ a ≤ s.i.toNat + x.val))

/-- R28-R32: which instructions write DT, ST, FB and DIRTY; a STEP never writes KEY and never clears
DIRTY. -/
def Obligations.DeviceStateWriters : Prop :=
  (∀ (i : Instr) (s t : State), exec i s = .next t →
    (t.dt ≠ s.dt → ∃ x, i = .ldDTVx x) ∧
    (t.st ≠ s.st → ∃ x, i = .ldSTVx x) ∧
    (t.fb ≠ s.fb ∨ t.dirty ≠ s.dirty → i = .cls ∨ ∃ x y n, i = .drw x y n)) ∧
  ∀ s t : State, step s = .next t → t.key = s.key ∧ (s.dirty = true → t.dirty = true)

/-- R29: no instruction reads ST: with another value of ST, an instruction that does not write it does
the same to everything else. -/
def Obligations.SoundTimerIsNeverRead : Prop :=
  ∀ (i : Instr) (s t : State) (b : Byte), (∀ x, i ≠ .ldSTVx x) → exec i s = .next t →
    exec i (s.setST b) = .next (t.setST b)

/-- R52: no STEP changes the font. -/
def Obligations.StepKeepsFont : Prop :=
  ∀ s t : State, s.mem.wf → s.fontIntact → step s = .next t → t.fontIntact

/-- R24: the largest pc any STEP gives a machine whose pc and stack are in bounds is 0x10FE. -/
def Obligations.StepKeepsPcInBounds : Prop :=
  ∀ s t : State, s.pcBounded → step s = .next t → t.pcBounded

/-! ## The invariant -/

/-- The invariant holds at reset. -/
def Obligations.ResetMeetsInvariant : Prop := State.reset.Inv

/-- Every STEP keeps the invariant, from every state that meets it. -/
def Obligations.StepKeepsInvariant : Prop :=
  ∀ s t : State, s.Inv → step s = .next t → t.Inv

/-- Every sequence of host transactions, in any order, keeps the invariant: LOADs, STEPs with any random
bytes, TICKs, key events, PRESENT_ACKs and QUITs. -/
def Obligations.TransactionsKeepInvariant : Prop :=
  ∀ (ts : List Transaction) (s t : State), s.Inv → runTransactions ts s = .next t → t.Inv

/-! ## Runs without a fault -/

/-- R215's premise "no fault", from a machine that is not FAULTED: `runsSafely` holds exactly when no
beginning of the run ends FAULTED, and exactly when the reporting run completes; so a QUIT or a LOAD after
a fault hides nothing. -/
def Obligations.SafeRunsAreTheRunsThatReportNoFault : Prop :=
  ∀ (ts : List Transaction) (s : State), ¬ s.faulted →
    (runsSafely ts s ↔ ∀ k ≤ ts.length, ∃ t, runTransactions (ts.take k) s = .next t ∧ ¬ t.faulted) ∧
    (runsSafely ts s ↔ ∃ t, reportTransactions ts s = .next t) ∧
    (¬ runsSafely ts s ↔ ∃ f, reportTransactions ts s = .fault f)
end

