-- ==== Sys2Proof/Laws/Decode.lean ====
section
/-! SUPPORT. The opcode map: its rows are disjoint, an accepting row is the row decoded, and the masks
and fields of the words the encoder makes. -/

namespace Sys2Proof

/-! ## The rows -/

/-- No word agrees with two rows on the bits both of them fix (30_encoding.md R77). -/
theorem opcodeTable_disjoint :
    opcodeTable.Pairwise fun r q => r.pat &&& q.mask ≠ q.pat &&& r.mask := by
  decide

theorem opcodeTable_length : opcodeTable.length = 34 := rfl

/-- Two rows that accept one word agree on the bits both fix. -/
theorem accepts_overlap {r q : Row} {op : Word} (hr : r.accepts op) (hq : q.accepts op) :
    r.pat &&& q.mask = q.pat &&& r.mask := by
  simp only [Row.accepts, beq_iff_eq] at hr hq
  rw [← hr, ← hq, BitVec.and_assoc, BitVec.and_assoc, BitVec.and_comm r.mask]

/-- The first accepting row is the only one, whatever the list's order. -/
theorem find_of_accepts {rows : List Row} {op : Word}
    (h : rows.Pairwise fun r q => r.pat &&& q.mask ≠ q.pat &&& r.mask) {r : Row} (hr : r ∈ rows)
    (ha : r.accepts op) : rows.find? (·.accepts op) = some r := by
  induction rows with
  | nil => exact absurd hr List.not_mem_nil
  | cons q rows ih =>
    rw [List.pairwise_cons] at h
    rcases List.mem_cons.mp hr with rfl | hr
    · simp [ha]
    · have : q.accepts op = false := by
        by_contra hq
        exact h.1 r hr (accepts_overlap (by simpa using hq) ha)
      simp [this, ih h.2 hr]

/-- A row of the opcode map that accepts a word is the row DECODE selects (30_encoding.md R77). -/
theorem decodeWord_of_row {r : Row} {op : Word} (hr : r ∈ opcodeTable) (ha : r.accepts op) :
    decodeWord op = .ok (r.build op) := by
  rw [decodeWord, find_of_accepts opcodeTable_disjoint hr ha]

/-- A decoded word is accepted by a row that builds the instruction. -/
theorem row_of_decodeWord {op : Word} {i : Instr} (h : decodeWord op = .ok i) :
    ∃ r ∈ opcodeTable, r.accepts op ∧ r.build op = i := by
  rw [decodeWord] at h
  split at h
  · next r hr =>
    have ha := List.find?_some hr
    exact ⟨r, List.mem_of_find?_eq_some hr, ha, by injection h⟩
  · cases h

/-! ## Bytes and words -/

@[simp] theorem opcodeOf_wordBytes (op : Word) :
    opcodeOf (op.extractLsb' 8 8) (op.extractLsb' 0 8) = op := by
  apply BitVec.eq_of_toNat_eq
  simp only [opcodeOf, low16, BitVec.toNat_ofNat, BitVec.extractLsb'_toNat, Nat.shiftRight_eq_div_pow]
  have := op.isLt
  omega

/-- Decoding the two bytes of a word decodes the word. -/
@[simp] theorem decode_wordBytes (op : Word) : decode (wordBytes op) = decodeWord op := by
  simp [decode, wordBytes]

/-! ## The nibbles of the encoder's words -/

theorem regNibble_toNat (x : Reg) : (regNibble x).toNat = x.val := by
  have := x.isLt
  simp only [regNibble, BitVec.toNat_ofNat]
  omega

theorem wordNNN_toNat (f : BitVec 4) (nnn : Imm12) :
    (wordNNN f nnn).toNat = f.toNat * 4096 + nnn.toNat := by
  have := nnn.isLt
  rw [wordNNN, BitVec.toNat_append, ← Nat.shiftLeft_add_eq_or_of_lt this, Nat.shiftLeft_eq]

theorem wordXNN_toNat (f : BitVec 4) (x : Reg) (nn : Byte) :
    (wordXNN f x nn).toNat = f.toNat * 4096 + x.val * 256 + nn.toNat := by
  have h1 := nn.isLt
  have h2 := (regNibble x).isLt
  rw [wordXNN, BitVec.toNat_append, ← Nat.shiftLeft_add_eq_or_of_lt h1, BitVec.toNat_append,
    ← Nat.shiftLeft_add_eq_or_of_lt h2, regNibble_toNat, Nat.shiftLeft_eq, Nat.shiftLeft_eq]
  omega

theorem wordXY_toNat (f : BitVec 4) (x y : Reg) (n : BitVec 4) :
    (wordXY f x y n).toNat = f.toNat * 4096 + x.val * 256 + y.val * 16 + n.toNat := by
  have h1 := n.isLt
  have h2 := (regNibble x).isLt
  have h3 := (regNibble y).isLt
  rw [wordXY, nibbles, BitVec.toNat_append, ← Nat.shiftLeft_add_eq_or_of_lt h1, BitVec.toNat_append,
    ← Nat.shiftLeft_add_eq_or_of_lt h3, BitVec.toNat_append, ← Nat.shiftLeft_add_eq_or_of_lt h2,
    regNibble_toNat, regNibble_toNat, Nat.shiftLeft_eq, Nat.shiftLeft_eq, Nat.shiftLeft_eq]
  omega

/-! ## The fields of a word, as integers (00_scope.md R9) -/

theorem fieldX_val (op : Word) : (fieldX op).val = op.toNat / 256 % 16 := by
  simp [fieldX, BitVec.extractLsb'_toNat, Nat.shiftRight_eq_div_pow]

theorem fieldY_val (op : Word) : (fieldY op).val = op.toNat / 16 % 16 := by
  simp [fieldY, BitVec.extractLsb'_toNat, Nat.shiftRight_eq_div_pow]

theorem fieldN_toNat (op : Word) : (fieldN op).toNat = op.toNat % 16 := by
  simp [fieldN, BitVec.extractLsb'_toNat]

theorem fieldNN_toNat (op : Word) : (fieldNN op).toNat = op.toNat % 256 := by
  simp [fieldNN, BitVec.extractLsb'_toNat]

theorem fieldNNN_toNat (op : Word) : (fieldNNN op).toNat = op.toNat % 4096 := by
  simp [fieldNNN, BitVec.extractLsb'_toNat]

@[simp] theorem fieldNNN_wordNNN (f : BitVec 4) (nnn : Imm12) : fieldNNN (wordNNN f nnn) = nnn := by
  apply BitVec.eq_of_toNat_eq
  rw [fieldNNN_toNat, wordNNN_toNat]
  have := nnn.isLt
  omega

@[simp] theorem fieldX_wordXNN (f : BitVec 4) (x : Reg) (nn : Byte) : fieldX (wordXNN f x nn) = x := by
  apply Fin.ext
  rw [fieldX_val, wordXNN_toNat]
  have := nn.isLt
  omega

@[simp] theorem fieldNN_wordXNN (f : BitVec 4) (x : Reg) (nn : Byte) :
    fieldNN (wordXNN f x nn) = nn := by
  apply BitVec.eq_of_toNat_eq
  rw [fieldNN_toNat, wordXNN_toNat]
  have := nn.isLt
  omega

@[simp] theorem fieldX_wordXY (f : BitVec 4) (x y : Reg) (n : BitVec 4) :
    fieldX (wordXY f x y n) = x := by
  apply Fin.ext
  rw [fieldX_val, wordXY_toNat]
  have := n.isLt
  omega

@[simp] theorem fieldY_wordXY (f : BitVec 4) (x y : Reg) (n : BitVec 4) :
    fieldY (wordXY f x y n) = y := by
  apply Fin.ext
  rw [fieldY_val, wordXY_toNat]
  have := n.isLt
  omega

@[simp] theorem fieldN_wordXY (f : BitVec 4) (x y : Reg) (n : BitVec 4) :
    fieldN (wordXY f x y n) = n := by
  apply BitVec.eq_of_toNat_eq
  rw [fieldN_toNat, wordXY_toNat]
  have := n.isLt
  omega

/-! ## The four masks, as integers -/

theorem and_F000 (op : Word) : (op &&& 0xF000#16).toNat = op.toNat / 4096 * 4096 := by
  have h : op &&& 0xF000#16 = (op >>> 12) <<< 12 := by
    apply BitVec.eq_of_getLsbD_eq
    intro i hi
    interval_cases i <;> simp
  have := op.isLt
  rw [h, BitVec.toNat_shiftLeft, BitVec.toNat_ushiftRight, Nat.shiftLeft_eq,
    Nat.shiftRight_eq_div_pow]
  omega

/-- The family nibble and low bits that lie below it, put together, are added. -/
theorem family_or_low (op low : Word) (h : low.toNat < 4096) :
    ((op >>> 12) <<< 12 ||| low).toNat = op.toNat / 4096 * 4096 + low.toNat := by
  have h' : ((op >>> 12) <<< 12).toNat = (op.toNat / 4096) <<< 12 := by
    have := op.isLt
    rw [BitVec.toNat_shiftLeft, BitVec.toNat_ushiftRight, Nat.shiftLeft_eq, Nat.shiftLeft_eq,
      Nat.shiftRight_eq_div_pow]
    omega
  rw [BitVec.toNat_or, h', ← Nat.shiftLeft_add_eq_or_of_lt h, Nat.shiftLeft_eq]

theorem and_F00F (op : Word) :
    (op &&& 0xF00F#16).toNat = op.toNat / 4096 * 4096 + op.toNat % 16 := by
  have h : op &&& 0xF00F#16 = (op >>> 12) <<< 12 ||| (op <<< 12) >>> 12 := by
    apply BitVec.eq_of_getLsbD_eq
    intro i hi
    interval_cases i <;> simp
  have low : ((op <<< 12) >>> 12).toNat = op.toNat % 16 := by
    rw [BitVec.toNat_ushiftRight, BitVec.toNat_shiftLeft, Nat.shiftLeft_eq,
      Nat.shiftRight_eq_div_pow]
    omega
  rw [h, family_or_low _ _ (by omega), low]

theorem and_F0FF (op : Word) :
    (op &&& 0xF0FF#16).toNat = op.toNat / 4096 * 4096 + op.toNat % 256 := by
  have h : op &&& 0xF0FF#16 = (op >>> 12) <<< 12 ||| (op <<< 8) >>> 8 := by
    apply BitVec.eq_of_getLsbD_eq
    intro i hi
    interval_cases i <;> simp
  have low : ((op <<< 8) >>> 8).toNat = op.toNat % 256 := by
    rw [BitVec.toNat_ushiftRight, BitVec.toNat_shiftLeft, Nat.shiftLeft_eq,
      Nat.shiftRight_eq_div_pow]
    omega
  rw [h, family_or_low _ _ (by omega), low]

/-- A row without fixed low bits accepts the words of its family. -/
theorem accepts_F000 (p op : Word) (b : Word → Instr) :
    Row.accepts ⟨0xF000, p, b⟩ op ↔ op.toNat / 4096 * 4096 = p.toNat := by
  rw [← and_F000 op, BitVec.toNat_inj]
  exact beq_iff_eq

/-- A row with a fixed last nibble. -/
theorem accepts_F00F (p op : Word) (b : Word → Instr) :
    Row.accepts ⟨0xF00F, p, b⟩ op ↔ op.toNat / 4096 * 4096 + op.toNat % 16 = p.toNat := by
  rw [← and_F00F op, BitVec.toNat_inj]
  exact beq_iff_eq

/-- A row with a fixed low byte. -/
theorem accepts_F0FF (p op : Word) (b : Word → Instr) :
    Row.accepts ⟨0xF0FF, p, b⟩ op ↔ op.toNat / 4096 * 4096 + op.toNat % 256 = p.toNat := by
  rw [← and_F0FF op, BitVec.toNat_inj]
  exact beq_iff_eq

/-- A row whose whole word is fixed. -/
theorem accepts_FFFF (p op : Word) (b : Word → Instr) :
    Row.accepts ⟨0xFFFF, p, b⟩ op ↔ op.toNat = p.toNat := by
  have h : op &&& 0xFFFF = op := BitVec.and_allOnes
  rw [Row.accepts, h, beq_iff_eq, BitVec.toNat_inj]

end Sys2Proof
end

