-- ==== Sys2Proof/Laws/State.lean ====
section
/-! SUPPORT. The state record: what each update does to each field, and reading a V register or a key
after writing one. -/

namespace Sys2Proof.Machine.State

variable (s : State)

/-! ## setV -/

@[simp] theorem setV_mem (x : Reg) (b : Byte) : (s.setV x b).mem = s.mem := rfl
@[simp] theorem setV_v (x : Reg) (b : Byte) : (s.setV x b).v = s.v.set x.val b := rfl
@[simp] theorem setV_i (x : Reg) (b : Byte) : (s.setV x b).i = s.i := rfl
@[simp] theorem setV_pc (x : Reg) (b : Byte) : (s.setV x b).pc = s.pc := rfl
@[simp] theorem setV_stack (x : Reg) (b : Byte) : (s.setV x b).stack = s.stack := rfl
@[simp] theorem setV_sp (x : Reg) (b : Byte) : (s.setV x b).sp = s.sp := rfl
@[simp] theorem setV_dt (x : Reg) (b : Byte) : (s.setV x b).dt = s.dt := rfl
@[simp] theorem setV_st (x : Reg) (b : Byte) : (s.setV x b).st = s.st := rfl
@[simp] theorem setV_fb (x : Reg) (b : Byte) : (s.setV x b).fb = s.fb := rfl
@[simp] theorem setV_dirty (x : Reg) (b : Byte) : (s.setV x b).dirty = s.dirty := rfl
@[simp] theorem setV_key (x : Reg) (b : Byte) : (s.setV x b).key = s.key := rfl
@[simp] theorem setV_status (x : Reg) (b : Byte) : (s.setV x b).status = s.status := rfl
@[simp] theorem setV_draws (x : Reg) (b : Byte) : (s.setV x b).draws = s.draws := rfl

/-! ## setI -/

@[simp] theorem setI_mem (w : Word) : (s.setI w).mem = s.mem := rfl
@[simp] theorem setI_v (w : Word) : (s.setI w).v = s.v := rfl
@[simp] theorem setI_i (w : Word) : (s.setI w).i = w := rfl
@[simp] theorem setI_pc (w : Word) : (s.setI w).pc = s.pc := rfl
@[simp] theorem setI_stack (w : Word) : (s.setI w).stack = s.stack := rfl
@[simp] theorem setI_sp (w : Word) : (s.setI w).sp = s.sp := rfl
@[simp] theorem setI_dt (w : Word) : (s.setI w).dt = s.dt := rfl
@[simp] theorem setI_st (w : Word) : (s.setI w).st = s.st := rfl
@[simp] theorem setI_fb (w : Word) : (s.setI w).fb = s.fb := rfl
@[simp] theorem setI_dirty (w : Word) : (s.setI w).dirty = s.dirty := rfl
@[simp] theorem setI_key (w : Word) : (s.setI w).key = s.key := rfl
@[simp] theorem setI_status (w : Word) : (s.setI w).status = s.status := rfl
@[simp] theorem setI_draws (w : Word) : (s.setI w).draws = s.draws := rfl

/-! ## setPc -/

@[simp] theorem setPc_mem (w : Word) : (s.setPc w).mem = s.mem := rfl
@[simp] theorem setPc_v (w : Word) : (s.setPc w).v = s.v := rfl
@[simp] theorem setPc_i (w : Word) : (s.setPc w).i = s.i := rfl
@[simp] theorem setPc_pc (w : Word) : (s.setPc w).pc = w := rfl
@[simp] theorem setPc_stack (w : Word) : (s.setPc w).stack = s.stack := rfl
@[simp] theorem setPc_sp (w : Word) : (s.setPc w).sp = s.sp := rfl
@[simp] theorem setPc_dt (w : Word) : (s.setPc w).dt = s.dt := rfl
@[simp] theorem setPc_st (w : Word) : (s.setPc w).st = s.st := rfl
@[simp] theorem setPc_fb (w : Word) : (s.setPc w).fb = s.fb := rfl
@[simp] theorem setPc_dirty (w : Word) : (s.setPc w).dirty = s.dirty := rfl
@[simp] theorem setPc_key (w : Word) : (s.setPc w).key = s.key := rfl
@[simp] theorem setPc_status (w : Word) : (s.setPc w).status = s.status := rfl
@[simp] theorem setPc_draws (w : Word) : (s.setPc w).draws = s.draws := rfl

/-! ## setDT -/

@[simp] theorem setDT_mem (b : Byte) : (s.setDT b).mem = s.mem := rfl
@[simp] theorem setDT_v (b : Byte) : (s.setDT b).v = s.v := rfl
@[simp] theorem setDT_i (b : Byte) : (s.setDT b).i = s.i := rfl
@[simp] theorem setDT_pc (b : Byte) : (s.setDT b).pc = s.pc := rfl
@[simp] theorem setDT_stack (b : Byte) : (s.setDT b).stack = s.stack := rfl
@[simp] theorem setDT_sp (b : Byte) : (s.setDT b).sp = s.sp := rfl
@[simp] theorem setDT_dt (b : Byte) : (s.setDT b).dt = b := rfl
@[simp] theorem setDT_st (b : Byte) : (s.setDT b).st = s.st := rfl
@[simp] theorem setDT_fb (b : Byte) : (s.setDT b).fb = s.fb := rfl
@[simp] theorem setDT_dirty (b : Byte) : (s.setDT b).dirty = s.dirty := rfl
@[simp] theorem setDT_key (b : Byte) : (s.setDT b).key = s.key := rfl
@[simp] theorem setDT_status (b : Byte) : (s.setDT b).status = s.status := rfl
@[simp] theorem setDT_draws (b : Byte) : (s.setDT b).draws = s.draws := rfl

/-! ## setST -/

@[simp] theorem setST_mem (b : Byte) : (s.setST b).mem = s.mem := rfl
@[simp] theorem setST_v (b : Byte) : (s.setST b).v = s.v := rfl
@[simp] theorem setST_i (b : Byte) : (s.setST b).i = s.i := rfl
@[simp] theorem setST_pc (b : Byte) : (s.setST b).pc = s.pc := rfl
@[simp] theorem setST_stack (b : Byte) : (s.setST b).stack = s.stack := rfl
@[simp] theorem setST_sp (b : Byte) : (s.setST b).sp = s.sp := rfl
@[simp] theorem setST_dt (b : Byte) : (s.setST b).dt = s.dt := rfl
@[simp] theorem setST_st (b : Byte) : (s.setST b).st = b := rfl
@[simp] theorem setST_fb (b : Byte) : (s.setST b).fb = s.fb := rfl
@[simp] theorem setST_dirty (b : Byte) : (s.setST b).dirty = s.dirty := rfl
@[simp] theorem setST_key (b : Byte) : (s.setST b).key = s.key := rfl
@[simp] theorem setST_status (b : Byte) : (s.setST b).status = s.status := rfl
@[simp] theorem setST_draws (b : Byte) : (s.setST b).draws = s.draws := rfl

/-! ## setFb -/

@[simp] theorem setFb_mem (f : Framebuffer) : (s.setFb f).mem = s.mem := rfl
@[simp] theorem setFb_v (f : Framebuffer) : (s.setFb f).v = s.v := rfl
@[simp] theorem setFb_i (f : Framebuffer) : (s.setFb f).i = s.i := rfl
@[simp] theorem setFb_pc (f : Framebuffer) : (s.setFb f).pc = s.pc := rfl
@[simp] theorem setFb_stack (f : Framebuffer) : (s.setFb f).stack = s.stack := rfl
@[simp] theorem setFb_sp (f : Framebuffer) : (s.setFb f).sp = s.sp := rfl
@[simp] theorem setFb_dt (f : Framebuffer) : (s.setFb f).dt = s.dt := rfl
@[simp] theorem setFb_st (f : Framebuffer) : (s.setFb f).st = s.st := rfl
@[simp] theorem setFb_fb (f : Framebuffer) : (s.setFb f).fb = f := rfl
@[simp] theorem setFb_dirty (f : Framebuffer) : (s.setFb f).dirty = s.dirty := rfl
@[simp] theorem setFb_key (f : Framebuffer) : (s.setFb f).key = s.key := rfl
@[simp] theorem setFb_status (f : Framebuffer) : (s.setFb f).status = s.status := rfl
@[simp] theorem setFb_draws (f : Framebuffer) : (s.setFb f).draws = s.draws := rfl

/-! ## setDirty -/

@[simp] theorem setDirty_mem (d : Bool) : (s.setDirty d).mem = s.mem := rfl
@[simp] theorem setDirty_v (d : Bool) : (s.setDirty d).v = s.v := rfl
@[simp] theorem setDirty_i (d : Bool) : (s.setDirty d).i = s.i := rfl
@[simp] theorem setDirty_pc (d : Bool) : (s.setDirty d).pc = s.pc := rfl
@[simp] theorem setDirty_stack (d : Bool) : (s.setDirty d).stack = s.stack := rfl
@[simp] theorem setDirty_sp (d : Bool) : (s.setDirty d).sp = s.sp := rfl
@[simp] theorem setDirty_dt (d : Bool) : (s.setDirty d).dt = s.dt := rfl
@[simp] theorem setDirty_st (d : Bool) : (s.setDirty d).st = s.st := rfl
@[simp] theorem setDirty_fb (d : Bool) : (s.setDirty d).fb = s.fb := rfl
@[simp] theorem setDirty_dirty (d : Bool) : (s.setDirty d).dirty = d := rfl
@[simp] theorem setDirty_key (d : Bool) : (s.setDirty d).key = s.key := rfl
@[simp] theorem setDirty_status (d : Bool) : (s.setDirty d).status = s.status := rfl
@[simp] theorem setDirty_draws (d : Bool) : (s.setDirty d).draws = s.draws := rfl

/-! ## setKey -/

@[simp] theorem setKey_mem (k : Key) (d : Bool) : (s.setKey k d).mem = s.mem := rfl
@[simp] theorem setKey_v (k : Key) (d : Bool) : (s.setKey k d).v = s.v := rfl
@[simp] theorem setKey_i (k : Key) (d : Bool) : (s.setKey k d).i = s.i := rfl
@[simp] theorem setKey_pc (k : Key) (d : Bool) : (s.setKey k d).pc = s.pc := rfl
@[simp] theorem setKey_stack (k : Key) (d : Bool) : (s.setKey k d).stack = s.stack := rfl
@[simp] theorem setKey_sp (k : Key) (d : Bool) : (s.setKey k d).sp = s.sp := rfl
@[simp] theorem setKey_dt (k : Key) (d : Bool) : (s.setKey k d).dt = s.dt := rfl
@[simp] theorem setKey_st (k : Key) (d : Bool) : (s.setKey k d).st = s.st := rfl
@[simp] theorem setKey_fb (k : Key) (d : Bool) : (s.setKey k d).fb = s.fb := rfl
@[simp] theorem setKey_dirty (k : Key) (d : Bool) : (s.setKey k d).dirty = s.dirty := rfl
@[simp] theorem setKey_key (k : Key) (d : Bool) : (s.setKey k d).key = s.key.set k.val d := rfl
@[simp] theorem setKey_status (k : Key) (d : Bool) : (s.setKey k d).status = s.status := rfl
@[simp] theorem setKey_draws (k : Key) (d : Bool) : (s.setKey k d).draws = s.draws := rfl

/-! ## setMem -/

@[simp] theorem setMem_mem (m : Memory) : (s.setMem m).mem = m := rfl
@[simp] theorem setMem_v (m : Memory) : (s.setMem m).v = s.v := rfl
@[simp] theorem setMem_i (m : Memory) : (s.setMem m).i = s.i := rfl
@[simp] theorem setMem_pc (m : Memory) : (s.setMem m).pc = s.pc := rfl
@[simp] theorem setMem_stack (m : Memory) : (s.setMem m).stack = s.stack := rfl
@[simp] theorem setMem_sp (m : Memory) : (s.setMem m).sp = s.sp := rfl
@[simp] theorem setMem_dt (m : Memory) : (s.setMem m).dt = s.dt := rfl
@[simp] theorem setMem_st (m : Memory) : (s.setMem m).st = s.st := rfl
@[simp] theorem setMem_fb (m : Memory) : (s.setMem m).fb = s.fb := rfl
@[simp] theorem setMem_dirty (m : Memory) : (s.setMem m).dirty = s.dirty := rfl
@[simp] theorem setMem_key (m : Memory) : (s.setMem m).key = s.key := rfl
@[simp] theorem setMem_status (m : Memory) : (s.setMem m).status = s.status := rfl
@[simp] theorem setMem_draws (m : Memory) : (s.setMem m).draws = s.draws := rfl

/-! ## setStatus -/

@[simp] theorem setStatus_mem (a : Status) : (s.setStatus a).mem = s.mem := rfl
@[simp] theorem setStatus_v (a : Status) : (s.setStatus a).v = s.v := rfl
@[simp] theorem setStatus_i (a : Status) : (s.setStatus a).i = s.i := rfl
@[simp] theorem setStatus_pc (a : Status) : (s.setStatus a).pc = s.pc := rfl
@[simp] theorem setStatus_stack (a : Status) : (s.setStatus a).stack = s.stack := rfl
@[simp] theorem setStatus_sp (a : Status) : (s.setStatus a).sp = s.sp := rfl
@[simp] theorem setStatus_dt (a : Status) : (s.setStatus a).dt = s.dt := rfl
@[simp] theorem setStatus_st (a : Status) : (s.setStatus a).st = s.st := rfl
@[simp] theorem setStatus_fb (a : Status) : (s.setStatus a).fb = s.fb := rfl
@[simp] theorem setStatus_dirty (a : Status) : (s.setStatus a).dirty = s.dirty := rfl
@[simp] theorem setStatus_key (a : Status) : (s.setStatus a).key = s.key := rfl
@[simp] theorem setStatus_status (a : Status) : (s.setStatus a).status = a := rfl
@[simp] theorem setStatus_draws (a : Status) : (s.setStatus a).draws = s.draws := rfl

/-! ## nextDraw -/

@[simp] theorem nextDraw_mem : s.nextDraw.mem = s.mem := rfl
@[simp] theorem nextDraw_v : s.nextDraw.v = s.v := rfl
@[simp] theorem nextDraw_i : s.nextDraw.i = s.i := rfl
@[simp] theorem nextDraw_pc : s.nextDraw.pc = s.pc := rfl
@[simp] theorem nextDraw_stack : s.nextDraw.stack = s.stack := rfl
@[simp] theorem nextDraw_sp : s.nextDraw.sp = s.sp := rfl
@[simp] theorem nextDraw_dt : s.nextDraw.dt = s.dt := rfl
@[simp] theorem nextDraw_st : s.nextDraw.st = s.st := rfl
@[simp] theorem nextDraw_fb : s.nextDraw.fb = s.fb := rfl
@[simp] theorem nextDraw_dirty : s.nextDraw.dirty = s.dirty := rfl
@[simp] theorem nextDraw_key : s.nextDraw.key = s.key := rfl
@[simp] theorem nextDraw_status : s.nextDraw.status = s.status := rfl
@[simp] theorem nextDraw_draws : s.nextDraw.draws = s.draws + 1 := rfl

/-! ## advance -/

@[simp] theorem advance_mem : s.advance.mem = s.mem := rfl
@[simp] theorem advance_v : s.advance.v = s.v := rfl
@[simp] theorem advance_i : s.advance.i = s.i := rfl
@[simp] theorem advance_pc : s.advance.pc = s.pc + 2 := rfl
@[simp] theorem advance_stack : s.advance.stack = s.stack := rfl
@[simp] theorem advance_sp : s.advance.sp = s.sp := rfl
@[simp] theorem advance_dt : s.advance.dt = s.dt := rfl
@[simp] theorem advance_st : s.advance.st = s.st := rfl
@[simp] theorem advance_fb : s.advance.fb = s.fb := rfl
@[simp] theorem advance_dirty : s.advance.dirty = s.dirty := rfl
@[simp] theorem advance_key : s.advance.key = s.key := rfl
@[simp] theorem advance_status : s.advance.status = s.status := rfl
@[simp] theorem advance_draws : s.advance.draws = s.draws := rfl

/-! ## skipIf -/

@[simp] theorem skipIf_mem (c : Bool) : (s.skipIf c).mem = s.mem := by
  cases c <;> rfl
@[simp] theorem skipIf_v (c : Bool) : (s.skipIf c).v = s.v := by
  cases c <;> rfl
@[simp] theorem skipIf_i (c : Bool) : (s.skipIf c).i = s.i := by
  cases c <;> rfl
@[simp] theorem skipIf_pc (c : Bool) :
    (s.skipIf c).pc = if c then s.pc + 2 else s.pc := by
  cases c <;> rfl
@[simp] theorem skipIf_stack (c : Bool) : (s.skipIf c).stack = s.stack := by
  cases c <;> rfl
@[simp] theorem skipIf_sp (c : Bool) : (s.skipIf c).sp = s.sp := by
  cases c <;> rfl
@[simp] theorem skipIf_dt (c : Bool) : (s.skipIf c).dt = s.dt := by
  cases c <;> rfl
@[simp] theorem skipIf_st (c : Bool) : (s.skipIf c).st = s.st := by
  cases c <;> rfl
@[simp] theorem skipIf_fb (c : Bool) : (s.skipIf c).fb = s.fb := by
  cases c <;> rfl
@[simp] theorem skipIf_dirty (c : Bool) : (s.skipIf c).dirty = s.dirty := by
  cases c <;> rfl
@[simp] theorem skipIf_key (c : Bool) : (s.skipIf c).key = s.key := by
  cases c <;> rfl
@[simp] theorem skipIf_status (c : Bool) : (s.skipIf c).status = s.status := by
  cases c <;> rfl
@[simp] theorem skipIf_draws (c : Bool) : (s.skipIf c).draws = s.draws := by
  cases c <;> rfl

/-! ## loadRegs -/

@[simp] theorem loadRegs_mem (bs : List Byte) : (s.loadRegs bs).mem = s.mem := rfl
@[simp] theorem loadRegs_v (bs : List Byte) :
    (s.loadRegs bs).v = Vector.ofFn fun i : Fin 16 => bs.getD i.val (s.getV i) := rfl
@[simp] theorem loadRegs_i (bs : List Byte) : (s.loadRegs bs).i = s.i := rfl
@[simp] theorem loadRegs_pc (bs : List Byte) : (s.loadRegs bs).pc = s.pc := rfl
@[simp] theorem loadRegs_stack (bs : List Byte) : (s.loadRegs bs).stack = s.stack := rfl
@[simp] theorem loadRegs_sp (bs : List Byte) : (s.loadRegs bs).sp = s.sp := rfl
@[simp] theorem loadRegs_dt (bs : List Byte) : (s.loadRegs bs).dt = s.dt := rfl
@[simp] theorem loadRegs_st (bs : List Byte) : (s.loadRegs bs).st = s.st := rfl
@[simp] theorem loadRegs_fb (bs : List Byte) : (s.loadRegs bs).fb = s.fb := rfl
@[simp] theorem loadRegs_dirty (bs : List Byte) : (s.loadRegs bs).dirty = s.dirty := rfl
@[simp] theorem loadRegs_key (bs : List Byte) : (s.loadRegs bs).key = s.key := rfl
@[simp] theorem loadRegs_status (bs : List Byte) : (s.loadRegs bs).status = s.status := rfl
@[simp] theorem loadRegs_draws (bs : List Byte) : (s.loadRegs bs).draws = s.draws := rfl

/-! ## setVFlag -/

@[simp] theorem setVFlag_mem (x : Reg) (r : Byte) (f : Bool) : (s.setVFlag x r f).mem = s.mem := rfl
@[simp] theorem setVFlag_v (x : Reg) (r : Byte) (f : Bool) :
    (s.setVFlag x r f).v = (s.v.set x.val r).set 15 (flagByte f) := rfl
@[simp] theorem setVFlag_i (x : Reg) (r : Byte) (f : Bool) : (s.setVFlag x r f).i = s.i := rfl
@[simp] theorem setVFlag_pc (x : Reg) (r : Byte) (f : Bool) : (s.setVFlag x r f).pc = s.pc := rfl
@[simp] theorem setVFlag_stack (x : Reg) (r : Byte) (f : Bool) :
    (s.setVFlag x r f).stack = s.stack := rfl
@[simp] theorem setVFlag_sp (x : Reg) (r : Byte) (f : Bool) : (s.setVFlag x r f).sp = s.sp := rfl
@[simp] theorem setVFlag_dt (x : Reg) (r : Byte) (f : Bool) : (s.setVFlag x r f).dt = s.dt := rfl
@[simp] theorem setVFlag_st (x : Reg) (r : Byte) (f : Bool) : (s.setVFlag x r f).st = s.st := rfl
@[simp] theorem setVFlag_fb (x : Reg) (r : Byte) (f : Bool) : (s.setVFlag x r f).fb = s.fb := rfl
@[simp] theorem setVFlag_dirty (x : Reg) (r : Byte) (f : Bool) :
    (s.setVFlag x r f).dirty = s.dirty := rfl
@[simp] theorem setVFlag_key (x : Reg) (r : Byte) (f : Bool) : (s.setVFlag x r f).key = s.key := rfl
@[simp] theorem setVFlag_status (x : Reg) (r : Byte) (f : Bool) :
    (s.setVFlag x r f).status = s.status := rfl
@[simp] theorem setVFlag_draws (x : Reg) (r : Byte) (f : Bool) :
    (s.setVFlag x r f).draws = s.draws := rfl

/-! ## stop -/

@[simp] theorem stop_mem (a : RunState) (c : Cause) (o d : Word) :
    (s.stop a c o d).mem = s.mem := rfl
@[simp] theorem stop_v (a : RunState) (c : Cause) (o d : Word) : (s.stop a c o d).v = s.v := rfl
@[simp] theorem stop_i (a : RunState) (c : Cause) (o d : Word) : (s.stop a c o d).i = s.i := rfl
@[simp] theorem stop_pc (a : RunState) (c : Cause) (o d : Word) : (s.stop a c o d).pc = s.pc := rfl
@[simp] theorem stop_stack (a : RunState) (c : Cause) (o d : Word) :
    (s.stop a c o d).stack = s.stack := rfl
@[simp] theorem stop_sp (a : RunState) (c : Cause) (o d : Word) : (s.stop a c o d).sp = s.sp := rfl
@[simp] theorem stop_dt (a : RunState) (c : Cause) (o d : Word) : (s.stop a c o d).dt = s.dt := rfl
@[simp] theorem stop_st (a : RunState) (c : Cause) (o d : Word) : (s.stop a c o d).st = s.st := rfl
@[simp] theorem stop_fb (a : RunState) (c : Cause) (o d : Word) : (s.stop a c o d).fb = s.fb := rfl
@[simp] theorem stop_dirty (a : RunState) (c : Cause) (o d : Word) :
    (s.stop a c o d).dirty = s.dirty := rfl
@[simp] theorem stop_key (a : RunState) (c : Cause) (o d : Word) :
    (s.stop a c o d).key = s.key := rfl
@[simp] theorem stop_status (a : RunState) (c : Cause) (o d : Word) :
    (s.stop a c o d).status = { s.status with
      state := a, cause := c, faultPc := s.pc, faultOpcode := o, faultAddr := d } := rfl
@[simp] theorem stop_draws (a : RunState) (c : Cause) (o d : Word) :
    (s.stop a c o d).draws = s.draws := rfl

/-! ## takeFault -/

@[simp] theorem takeFault_mem (o : Word) (f : Fault) : (s.takeFault o f).mem = s.mem := rfl
@[simp] theorem takeFault_v (o : Word) (f : Fault) : (s.takeFault o f).v = s.v := rfl
@[simp] theorem takeFault_i (o : Word) (f : Fault) : (s.takeFault o f).i = s.i := rfl
@[simp] theorem takeFault_pc (o : Word) (f : Fault) : (s.takeFault o f).pc = s.pc := rfl
@[simp] theorem takeFault_stack (o : Word) (f : Fault) : (s.takeFault o f).stack = s.stack := rfl
@[simp] theorem takeFault_sp (o : Word) (f : Fault) : (s.takeFault o f).sp = s.sp := rfl
@[simp] theorem takeFault_dt (o : Word) (f : Fault) : (s.takeFault o f).dt = s.dt := rfl
@[simp] theorem takeFault_st (o : Word) (f : Fault) : (s.takeFault o f).st = s.st := rfl
@[simp] theorem takeFault_fb (o : Word) (f : Fault) : (s.takeFault o f).fb = s.fb := rfl
@[simp] theorem takeFault_dirty (o : Word) (f : Fault) : (s.takeFault o f).dirty = s.dirty := rfl
@[simp] theorem takeFault_key (o : Word) (f : Fault) : (s.takeFault o f).key = s.key := rfl
@[simp] theorem takeFault_status (o : Word) (f : Fault) :
    (s.takeFault o f).status = { s.status with
      state := .faulted, cause := f.cause, faultPc := s.pc, faultOpcode := o, faultAddr := f.addr } := rfl
@[simp] theorem takeFault_draws (o : Word) (f : Fault) : (s.takeFault o f).draws = s.draws := rfl

/-! ## takeHalt -/

@[simp] theorem takeHalt_mem : s.takeHalt.mem = s.mem := rfl
@[simp] theorem takeHalt_v : s.takeHalt.v = s.v := rfl
@[simp] theorem takeHalt_i : s.takeHalt.i = s.i := rfl
@[simp] theorem takeHalt_pc : s.takeHalt.pc = s.pc := rfl
@[simp] theorem takeHalt_stack : s.takeHalt.stack = s.stack := rfl
@[simp] theorem takeHalt_sp : s.takeHalt.sp = s.sp := rfl
@[simp] theorem takeHalt_dt : s.takeHalt.dt = s.dt := rfl
@[simp] theorem takeHalt_st : s.takeHalt.st = s.st := rfl
@[simp] theorem takeHalt_fb : s.takeHalt.fb = s.fb := rfl
@[simp] theorem takeHalt_dirty : s.takeHalt.dirty = s.dirty := rfl
@[simp] theorem takeHalt_key : s.takeHalt.key = s.key := rfl
@[simp] theorem takeHalt_status :
    s.takeHalt.status = { s.status with
      state := .halted, cause := .haltEndOfMemory, faultPc := s.pc, faultOpcode := 0,
      faultAddr := s.pc } := rfl
@[simp] theorem takeHalt_draws : s.takeHalt.draws = s.draws := rfl

/-! ## Reading a V register or a key -/

@[simp] theorem getKey_setV (x : Reg) (b : Byte) (k' : Key) :
    (s.setV x b).getKey k' = s.getKey k' := rfl
@[simp] theorem getV_setI (w : Word) (r : Reg) :
    (s.setI w).getV r = s.getV r := rfl
@[simp] theorem getKey_setI (w : Word) (k' : Key) :
    (s.setI w).getKey k' = s.getKey k' := rfl
@[simp] theorem getV_setPc (w : Word) (r : Reg) :
    (s.setPc w).getV r = s.getV r := rfl
@[simp] theorem getKey_setPc (w : Word) (k' : Key) :
    (s.setPc w).getKey k' = s.getKey k' := rfl
@[simp] theorem getV_setDT (b : Byte) (r : Reg) :
    (s.setDT b).getV r = s.getV r := rfl
@[simp] theorem getKey_setDT (b : Byte) (k' : Key) :
    (s.setDT b).getKey k' = s.getKey k' := rfl
@[simp] theorem getV_setST (b : Byte) (r : Reg) :
    (s.setST b).getV r = s.getV r := rfl
@[simp] theorem getKey_setST (b : Byte) (k' : Key) :
    (s.setST b).getKey k' = s.getKey k' := rfl
@[simp] theorem getV_setFb (f : Framebuffer) (r : Reg) :
    (s.setFb f).getV r = s.getV r := rfl
@[simp] theorem getKey_setFb (f : Framebuffer) (k' : Key) :
    (s.setFb f).getKey k' = s.getKey k' := rfl
@[simp] theorem getV_setDirty (d : Bool) (r : Reg) :
    (s.setDirty d).getV r = s.getV r := rfl
@[simp] theorem getKey_setDirty (d : Bool) (k' : Key) :
    (s.setDirty d).getKey k' = s.getKey k' := rfl
@[simp] theorem getV_setKey (k : Key) (d : Bool) (r : Reg) :
    (s.setKey k d).getV r = s.getV r := rfl
@[simp] theorem getV_setMem (m : Memory) (r : Reg) :
    (s.setMem m).getV r = s.getV r := rfl
@[simp] theorem getKey_setMem (m : Memory) (k' : Key) :
    (s.setMem m).getKey k' = s.getKey k' := rfl
@[simp] theorem getV_setStatus (a : Status) (r : Reg) :
    (s.setStatus a).getV r = s.getV r := rfl
@[simp] theorem getKey_setStatus (a : Status) (k' : Key) :
    (s.setStatus a).getKey k' = s.getKey k' := rfl
@[simp] theorem getV_nextDraw (r : Reg) :
    s.nextDraw.getV r = s.getV r := rfl
@[simp] theorem getKey_nextDraw (k' : Key) :
    s.nextDraw.getKey k' = s.getKey k' := rfl
@[simp] theorem getV_advance (r : Reg) :
    s.advance.getV r = s.getV r := rfl
@[simp] theorem getKey_advance (k' : Key) :
    s.advance.getKey k' = s.getKey k' := rfl
@[simp] theorem getV_skipIf (c : Bool) (r : Reg) :
    (s.skipIf c).getV r = s.getV r := by
  cases c <;> rfl
@[simp] theorem getKey_skipIf (c : Bool) (k' : Key) :
    (s.skipIf c).getKey k' = s.getKey k' := by
  cases c <;> rfl
@[simp] theorem getKey_loadRegs (bs : List Byte) (k' : Key) :
    (s.loadRegs bs).getKey k' = s.getKey k' := rfl
@[simp] theorem getKey_setVFlag (x : Reg) (r : Byte) (f : Bool) (k' : Key) :
    (s.setVFlag x r f).getKey k' = s.getKey k' := rfl
@[simp] theorem getV_stop (a : RunState) (c : Cause) (o d : Word) (r : Reg) :
    (s.stop a c o d).getV r = s.getV r := rfl
@[simp] theorem getKey_stop (a : RunState) (c : Cause) (o d : Word) (k' : Key) :
    (s.stop a c o d).getKey k' = s.getKey k' := rfl
@[simp] theorem getV_takeFault (o : Word) (f : Fault) (r : Reg) :
    (s.takeFault o f).getV r = s.getV r := rfl
@[simp] theorem getKey_takeFault (o : Word) (f : Fault) (k' : Key) :
    (s.takeFault o f).getKey k' = s.getKey k' := rfl
@[simp] theorem getV_takeHalt (r : Reg) :
    s.takeHalt.getV r = s.getV r := rfl
@[simp] theorem getKey_takeHalt (k' : Key) :
    s.takeHalt.getKey k' = s.getKey k' := rfl

theorem getV_setV (x r : Reg) (b : Byte) :
    (s.setV x b).getV r = if r = x then b else s.getV r := by
  simp only [getV, setV, Vector.getElem_set, Fin.ext_iff, eq_comm]

@[simp] theorem getV_setV_same (x : Reg) (b : Byte) : (s.setV x b).getV x = b := by
  simp [getV_setV]

@[simp] theorem getV_setV_of_ne {x r : Reg} (b : Byte) (h : r ≠ x) :
    (s.setV x b).getV r = s.getV r := by
  simp [getV_setV, h]

/-- The flag is written last, so VF holds it even when x = F (41_alu.md R126-R130). -/
theorem getV_setVFlag (x r : Reg) (a : Byte) (f : Bool) :
    (s.setVFlag x a f).getV r =
      if r = VF then flagByte f else if r = x then a else s.getV r := by
  simp [setVFlag, getV_setV]

theorem getV_loadRegs (bs : List Byte) (r : Reg) :
    (s.loadRegs bs).getV r = bs.getD r.val (s.getV r) := by
  simp [getV, loadRegs]

theorem getKey_setKey (k k' : Key) (d : Bool) :
    (s.setKey k d).getKey k' = if k' = k then d else s.getKey k' := by
  simp only [getKey, setKey, Vector.getElem_set, Fin.ext_iff, eq_comm]

/-- Two states with the same fields are the same state, V and KEY compared cell by cell. -/
theorem ext_cells {s t : State} (hm : t.mem = s.mem) (hv : ∀ r, t.getV r = s.getV r) (hi : t.i = s.i)
    (hp : t.pc = s.pc) (hs : t.stack = s.stack) (hsp : t.sp = s.sp) (hd : t.dt = s.dt)
    (hst : t.st = s.st) (hf : t.fb = s.fb) (hdi : t.dirty = s.dirty)
    (hk : ∀ k, t.getKey k = s.getKey k) (hstat : t.status = s.status) (hdr : t.draws = s.draws) :
    t = s := by
  have v : t.v = s.v := Vector.ext fun i h => hv ⟨i, h⟩
  have k : t.key = s.key := Vector.ext fun i h => hk ⟨i, h⟩
  cases s; cases t; simp_all

end Sys2Proof.Machine.State
end

