-- ==== Sys2Proof/Laws/Display.lean ====
section
/-! SUPPORT. The framebuffer: reading a pixel after flipping one, and what drawing a sprite does to
each pixel and to the collision result. -/

namespace Sys2Proof.Machine

@[simp] theorem pixel_clear (y : Fin 32) (x : Fin 64) : Framebuffer.clear.pixel y x = false := by
  simp [Framebuffer.pixel, Framebuffer.clear]

/-- Two framebuffers with the same pixels are the same. -/
theorem Framebuffer.ext_pixel {f g : Framebuffer} (h : ∀ y x, f.pixel y x = g.pixel y x) : f = g :=
  Vector.ext fun y hy => Vector.ext fun x hx => h ⟨y, hy⟩ ⟨x, hx⟩

theorem pixel_flip (f : Framebuffer) (y y' : Fin 32) (x x' : Fin 64) :
    (f.flip y x).pixel y' x' = (f.pixel y' x' ^^ (decide (y' = y) && decide (x' = x))) := by
  by_cases hy : y' = y
  · subst hy
    by_cases hx : x' = x
    · subst hx; simp [Framebuffer.pixel, Framebuffer.flip]
    · have : x.val ≠ x'.val := fun h => hx (Fin.ext h.symm)
      simp [Framebuffer.pixel, Framebuffer.flip, hx, Vector.getElem_set_ne, this]
  · have : y.val ≠ y'.val := fun h => hy (Fin.ext h.symm)
    simp [Framebuffer.pixel, Framebuffer.flip, hy, Vector.getElem_set_ne, this]

theorem plot_pixel (d : Blit) (py px : Nat) (bit : Bool) (y : Fin 32) (x : Fin 64) :
    (d.plot py px bit).fb.pixel y x =
      (d.fb.pixel y x ^^ (bit && decide (y = wrapY py) && decide (x = wrapX px))) := by
  cases bit <;> simp [Blit.plot, pixel_flip]

theorem plot_hit (d : Blit) (py px : Nat) (bit : Bool) :
    (d.plot py px bit).hit =
      (d.hit || bit && d.fb.pixel (wrapY py) (wrapX px)) := by
  cases bit <;> simp [Blit.plot]

/-- The column of the sprite that lies on column `px` of FB when the sprite's left edge is at `x`: the
offset modulo 64 (43_display.md R173). It is a column of the sprite when it is below 8. -/
def spriteCol (x : Nat) (px : Fin 64) : Nat := (px.val + 64 - x % 64) % 64

/-- The row of the sprite that lies on row `py` of FB when the sprite's top edge is at `y`: the offset
modulo 32 (43_display.md R173). -/
def spriteRow (y : Nat) (py : Fin 32) : Nat := (py.val + 32 - y % 32) % 32

/-- The bit a sprite has at a pixel of FB, 0 where the sprite does not lie (43_display.md R172, R173). -/
def spriteBit (x y : Nat) (bytes : List Byte) (py : Fin 32) (px : Fin 64) : Bool :=
  decide (spriteCol x px < 8) && (bytes.getD (spriteRow y py) 0).getLsbD (7 - spriteCol x px)

/-- A column of FB lies under column `c` of a sprite at `x` exactly when it is `(x + c) mod 64`. -/
theorem spriteCol_eq_iff (x c : Nat) (hc : c < 64) (px : Fin 64) :
    spriteCol x px = c ↔ px = wrapX (x + c) := by
  have := px.isLt; simp only [Fin.ext_iff, spriteCol, wrapX]; omega

/-- A row of FB lies under row `r` of a sprite at `y` exactly when it is `(y + r) mod 32`. -/
theorem spriteRow_eq_iff (y r : Nat) (hr : r < 32) (py : Fin 32) :
    spriteRow y py = r ↔ py = wrapY (y + r) := by
  have := py.isLt; simp only [Fin.ext_iff, spriteRow, wrapY]; omega

/-- The first `k` columns of a sprite row: each flips its pixel, and hits when it was set. -/
theorem row_prefix (d : Blit) (y x : Nat) (b : Byte) (k : Nat) (hk : k ≤ 8) :
    let e := (List.range k).foldl (fun d c => d.plot y (x + c) (b.getLsbD (7 - c))) d
    (∀ py px, e.fb.pixel py px = (d.fb.pixel py px ^^
      (decide (py = wrapY y) && (decide (spriteCol x px < k) &&
        b.getLsbD (7 - spriteCol x px))))) ∧
    (e.hit = true ↔ d.hit = true ∨ ∃ px, spriteCol x px < k ∧
      b.getLsbD (7 - spriteCol x px) = true ∧ d.fb.pixel (wrapY y) px = true) := by
  induction k with
  | zero => simp
  | succ k ih =>
    obtain ⟨ih1, ih2⟩ := ih (by omega)
    simp only [List.range_succ, List.foldl_append, List.foldl_cons, List.foldl_nil]
    constructor
    · intro py px
      rw [plot_pixel, ih1, Bool.xor_assoc]
      congr 1
      have := spriteCol_eq_iff x k (by omega) px
      by_cases h : spriteCol x px = k
      · simp [← this, h, Bool.and_comm]
      · have h' : px ≠ wrapX (x + k) := fun e => h (this.mpr e)
        simp only [h', show (spriteCol x px < k + 1) = (spriteCol x px < k) from propext (by omega)]
        simp
    · rw [plot_hit, Bool.or_eq_true, ih2, or_assoc, Bool.and_eq_true, ih1]
      refine or_congr_right ?_
      have this := fun px => spriteCol_eq_iff x k (by omega) px
      have hself : spriteCol x (wrapX (x + k)) = k := (this _).mpr rfl
      constructor
      · rintro (⟨px, h1, h2, h3⟩ | ⟨h2, h3⟩)
        · exact ⟨px, by omega, h2, h3⟩
        · exact ⟨wrapX (x + k), by omega, by rwa [hself], by simpa [hself] using h3⟩
      · rintro ⟨px, h1, h2, h3⟩
        by_cases h : spriteCol x px = k
        · obtain rfl := (this px).mp h
          exact .inr ⟨by rwa [h] at h2, by simp [h, h3]⟩
        · exact .inl ⟨px, by omega, h2, h3⟩

/-- Drawing the rows of a sprite, at most 32 of them: every pixel is XORed with the sprite's bit there,
and the draw hits exactly when a set pixel meets a set bit (43_display.md R171-R175). -/
theorem rows_spec (d : Blit) (y x : Nat) (bytes : List Byte) (hn : bytes.length ≤ 32) :
    (∀ py px, (d.rows y x bytes).fb.pixel py px =
      (d.fb.pixel py px ^^ spriteBit x y bytes py px)) ∧
    ((d.rows y x bytes).hit = true ↔ d.hit = true ∨
      ∃ py px, spriteBit x y bytes py px = true ∧ d.fb.pixel py px = true) := by
  induction bytes generalizing d y with
  | nil => simp [Blit.rows, spriteBit]
  | cons b bs ih =>
    rw [List.length_cons] at hn
    obtain ⟨r1, r2⟩ := row_prefix d y x b 8 (Nat.le_refl _)
    obtain ⟨i1, i2⟩ := ih (d.row y x b) (y + 1) (by omega)
    have hfirst : ∀ py : Fin 32, py = wrapY y → spriteRow y py = 0 := fun py h =>
      (spriteRow_eq_iff y 0 (by omega) py).mpr h
    have hnext : ∀ py : Fin 32, py = wrapY y → bs.length ≤ spriteRow (y + 1) py := by
      rintro py rfl
      have : spriteRow (y + 1) (wrapY y) = 31 := by
        simp only [spriteRow, wrapY]; omega
      omega
    have hrest : ∀ py : Fin 32, py ≠ wrapY y → spriteRow y py = spriteRow (y + 1) py + 1 := by
      intro py h
      have : py.val ≠ y % 32 := fun e => h (Fin.ext e)
      simp only [spriteRow]; omega
    have hbit : ∀ py px, spriteBit x y (b :: bs) py px =
        ((decide (py = wrapY y) && (decide (spriteCol x px < 8) &&
          b.getLsbD (7 - spriteCol x px))) ^^ spriteBit x (y + 1) bs py px) := by
      intro py px
      by_cases h : py = wrapY y
      · have := hnext py h
        subst h
        simp [spriteBit, hfirst _ rfl, List.getElem?_eq_none this]
      · simp [spriteBit, hrest py h, h]
    refine ⟨fun py px => ?_, ?_⟩
    · rw [Blit.rows, i1, Blit.row, r1, hbit, Bool.xor_assoc]
    · rw [Blit.rows, i2, Blit.row, r2]
      constructor
      · rintro ((h | ⟨px, h1, h2, h3⟩) | ⟨py, px, h1, h2⟩)
        · exact .inl h
        · refine .inr ⟨wrapY y, px, ?_, h3⟩
          simp [spriteBit, hfirst _ rfl, h1, h2]
        · by_cases h : py = wrapY y
          · have := hnext py h
            simp [spriteBit, List.getElem?_eq_none this] at h1
          · exact .inr ⟨py, px, by simp [hbit, h, h1], by simpa [Blit.row, r1, h] using h2⟩
      · rintro (h | ⟨py, px, h1, h2⟩)
        · exact .inl (.inl h)
        · by_cases h : py = wrapY y
          · subst h
            simp [spriteBit, hfirst _ rfl] at h1
            exact .inl (.inr ⟨px, h1.1, h1.2, h2⟩)
          · exact .inr ⟨py, px, by simpa [hbit, h] using h1, by simpa [Blit.row, r1, h] using h2⟩

end Sys2Proof.Machine
end

