-- ==== Sys2Proof/Laws/Memory.lean ====
section
/-! SUPPORT. MEM: reading after writing, the canonical form every operation keeps, and what each run of
accesses can answer. -/

namespace Sys2Proof.Machine

namespace Memory

@[simp] theorem read_nil (a : Nat) : Memory.read [] a = unlisted a := rfl

theorem read_cons (k : Nat) (b : Byte) (m : Memory) (a : Nat) :
    Memory.read ((k, b) :: m) a = if k = a then b else m.read a := rfl

/-- An address no entry lists reads as the reset contents. -/
theorem read_of_not_listed {m : Memory} {a : Nat} (h : ∀ c ∈ m, c.1 ≠ a) : m.read a = unlisted a := by
  induction m with
  | nil => rfl
  | cons c m ih =>
    obtain ⟨k, b⟩ := c
    rw [read_cons, if_neg (h _ List.mem_cons_self)]
    exact ih fun c hc => h c (List.mem_cons_of_mem _ hc)

/-- Read after write: the address written reads as the byte, every other as before. -/
theorem read_write {m : Memory} (h : m.Pairwise fun c d => c.1 < d.1) (a : Nat) (b : Byte) (a' : Nat) :
    (m.write a b).read a' = if a' = a then b else m.read a' := by
  induction m with
  | nil =>
    by_cases hb : b = unlisted a <;> by_cases ha : a' = a <;>
      simp_all [Memory.write, read_cons, eq_comm]
  | cons c m ih =>
    obtain ⟨k, d⟩ := c
    rw [List.pairwise_cons] at h
    have tail : ∀ x, x ≤ k → Memory.read m x = unlisted x := fun x hx =>
      read_of_not_listed fun c hc => by have : k < c.1 := h.1 c hc; omega
    simp only [Memory.write]
    split
    · split
      · subst b
        by_cases ha : a' = a
        · subst a'; simp [read_cons, show k ≠ a by omega, tail a (by omega)]
        · simp [ha]
      · by_cases ha : a' = a
        · simp [read_cons, ha]
        · simp [read_cons, ha, Ne.symm ha]
    · split
      · subst k
        split
        · subst b
          by_cases ha : a' = a
          · subst a'; rw [if_pos rfl]; exact tail _ (Nat.le_refl _)
          · simp [read_cons, ha, Ne.symm ha]
        · by_cases ha : a' = a
          · simp [read_cons, ha]
          · simp [read_cons, ha, Ne.symm ha]
      · by_cases hk : k = a'
        · subst hk; simp [read_cons, show k ≠ a by omega]
        · simp [read_cons, hk, ih h.2]

/-- Every entry of a written memory is the written one or an old one. -/
theorem mem_write {m : Memory} {a : Nat} {b : Byte} {c : Host.Cell} (h : c ∈ m.write a b) :
    (c = (a, b) ∧ b ≠ unlisted a) ∨ c ∈ m := by
  induction m with
  | nil => by_cases hb : b = unlisted a <;> simp_all [Memory.write]
  | cons d m ih =>
    obtain ⟨k, e⟩ := d
    simp only [Memory.write] at h
    split at h
    · split at h
      · exact .inr h
      · rcases List.mem_cons.mp h with rfl | h
        · exact .inl ⟨rfl, ‹_›⟩
        · exact .inr h
    · split at h
      · split at h
        · exact .inr (List.mem_cons_of_mem _ h)
        · rcases List.mem_cons.mp h with rfl | h
          · exact .inl ⟨rfl, ‹_›⟩
          · exact .inr (List.mem_cons_of_mem _ h)
      · rcases List.mem_cons.mp h with rfl | h
        · exact .inr List.mem_cons_self
        · exact (ih h).imp_right (List.mem_cons_of_mem _)

theorem write_rising {m : Memory} (h : m.Pairwise fun c d => c.1 < d.1) (a : Nat) (b : Byte) :
    (m.write a b).Pairwise fun c d => c.1 < d.1 := by
  induction m with
  | nil => by_cases hb : b = unlisted a <;> simp [Memory.write, hb]
  | cons d m ih =>
    obtain ⟨k, e⟩ := d
    have h' := List.pairwise_cons.mp h
    simp only [Memory.write]
    split
    · split
      · exact h
      · refine List.pairwise_cons.mpr ⟨fun c hc => ?_, h⟩
        rcases List.mem_cons.mp hc with rfl | hc
        · assumption
        · have : k < c.1 := h'.1 c hc; omega
    · split
      · subst k
        split
        · exact h'.2
        · exact List.pairwise_cons.mpr ⟨h'.1, h'.2⟩
      · refine List.pairwise_cons.mpr ⟨fun c hc => ?_, ih h'.2⟩
        rcases mem_write hc with ⟨rfl, -⟩ | hc
        · show k < a; omega
        · exact h'.1 c hc

theorem wf_nil : Memory.wf [] := ⟨List.Pairwise.nil, fun _ h => absurd h List.not_mem_nil⟩

/-- A write inside MEM keeps the canonical form. -/
theorem wf_write {m : Memory} (h : m.wf) {a : Nat} (ha : a < Config.memSize) (b : Byte) :
    (m.write a b).wf := by
  refine ⟨write_rising h.1 a b, fun c hc => ?_⟩
  rcases mem_write hc with ⟨rfl, hb⟩ | hc
  · exact ⟨ha, hb⟩
  · exact h.2 c hc

end Memory

/-! ## One access (20_memory.md R55, R56) -/

theorem memRead_eq_ok {m : Memory} {a : Nat} (h : a < 4096) : memRead m a = .ok (m.read a) := by
  simp [memRead, h]

theorem memRead_eq_error {m : Memory} {a : Nat} (h : 4096 ≤ a) :
    memRead m a = .error (.memRange a) := by
  simp [memRead, Nat.not_lt.mpr h]

theorem memWrite_eq_ok {m : Memory} {a : Nat} (h : 80 ≤ a) (h' : a < 4096) (b : Byte) :
    memWrite m a b = .ok (m.write a b) := by
  simp [memWrite, Nat.not_lt.mpr h, h']

theorem memWrite_eq_font {m : Memory} {a : Nat} (h : a < 80) (b : Byte) :
    memWrite m a b = .error (.fontWrite a) := by
  simp [memWrite, h]

theorem memWrite_eq_range {m : Memory} {a : Nat} (h : 4096 ≤ a) (b : Byte) :
    memWrite m a b = .error (.memRange a) := by
  simp [memWrite, Nat.not_lt.mpr h, show ¬ a < 80 by omega]

/-! ## Runs of accesses (20_memory.md R57) -/

/-- A run inside MEM is read whole. -/
theorem readRun_eq_ok (m : Memory) {a n : Nat} (h : n = 0 ∨ a + n ≤ 4096) :
    readRun m a n = .ok ((List.range' a n).map m.read) := by
  induction n generalizing a with
  | zero => rfl
  | succ n ih =>
    rw [readRun, memRead_eq_ok (by omega), ih (by omega)]
    simp [List.range'_succ]

/-- A run that leaves MEM faults at its lowest address at or above 0x1000, max(base, 0x1000)
(60_exceptions.md R211). -/
theorem readRun_eq_error (m : Memory) {a n : Nat} (hn : n ≠ 0) (h : 4096 < a + n) :
    readRun m a n = .error (.memRange (max a 4096)) := by
  induction n generalizing a with
  | zero => exact absurd rfl hn
  | succ n ih =>
    rw [readRun]
    by_cases ha : a < 4096
    · rw [memRead_eq_ok ha, ih (by omega) (by omega),
        show max (a + 1) 4096 = max a 4096 by omega]
    · rw [memRead_eq_error (by omega), show max a 4096 = a by omega]

theorem placeBytes_rising {m : Memory} (h : m.Pairwise fun c d => c.1 < d.1) (a : Nat)
    (bs : List Byte) : (placeBytes m a bs).Pairwise fun c d => c.1 < d.1 := by
  induction bs generalizing m a with
  | nil => exact h
  | cons b bs ih => exact ih (Memory.write_rising h a b) (a + 1)

/-- Bytes placed inside MEM keep the canonical form. -/
theorem placeBytes_wf {m : Memory} (h : m.wf) {a : Nat} {bs : List Byte} (ha : a + bs.length ≤ 4096) :
    (placeBytes m a bs).wf := by
  induction bs generalizing m a with
  | nil => exact h
  | cons b bs ih =>
    rw [List.length_cons] at ha
    exact ih (Memory.wf_write h (show a < 4096 by omega) b) (by omega)

/-- Placed bytes read back, and every other address reads as before. -/
theorem placeBytes_read {m : Memory} (h : m.Pairwise fun c d => c.1 < d.1) (a : Nat) (bs : List Byte)
    (a' : Nat) :
    (placeBytes m a bs).read a' =
      if a ≤ a' ∧ a' < a + bs.length then bs.getD (a' - a) 0 else m.read a' := by
  induction bs generalizing m a with
  | nil => simp [placeBytes, show ¬ (a ≤ a' ∧ a' < a) by omega]
  | cons b bs ih =>
    rw [placeBytes, ih (Memory.write_rising h a b), Memory.read_write h, List.length_cons]
    by_cases h1 : a' = a
    · subst a'; simp
    · by_cases h2 : a + 1 ≤ a' ∧ a' < a + 1 + bs.length
      · obtain ⟨k, rfl⟩ : ∃ k, a' = a + 1 + k := ⟨a' - (a + 1), by omega⟩
        rw [if_pos h2, if_pos (by omega), show a + 1 + k - (a + 1) = k by omega,
          show a + 1 + k - a = k + 1 by omega, List.getD_cons_succ]
      · rw [if_neg h2, if_neg h1, if_neg (by omega)]

/-- A run inside the writable part of MEM is written whole. -/
theorem writeRun_eq_ok (m : Memory) {a : Nat} {bs : List Byte}
    (h : bs = [] ∨ 80 ≤ a ∧ a + bs.length ≤ 4096) : writeRun m a bs = .ok (placeBytes m a bs) := by
  induction bs generalizing m a with
  | nil => rfl
  | cons b bs ih =>
    have h := h.resolve_left (List.cons_ne_nil _ _)
    rw [List.length_cons] at h
    rw [writeRun, memWrite_eq_ok h.1 (by omega), placeBytes]
    exact ih _ (.inr ⟨by omega, by omega⟩)

/-- A run that starts in the font faults there (20_memory.md R52). -/
theorem writeRun_eq_font (m : Memory) {a : Nat} {bs : List Byte} (hn : bs ≠ []) (h : a < 80) :
    writeRun m a bs = .error (.fontWrite a) := by
  cases bs with
  | nil => exact absurd rfl hn
  | cons b bs => rw [writeRun, memWrite_eq_font h]

/-- A run that leaves MEM faults at its lowest address at or above 0x1000 (60_exceptions.md R211). -/
theorem writeRun_eq_range (m : Memory) {a : Nat} {bs : List Byte} (hn : bs ≠ []) (ha : 80 ≤ a)
    (h : 4096 < a + bs.length) : writeRun m a bs = .error (.memRange (max a 4096)) := by
  induction bs generalizing m a with
  | nil => exact absurd rfl hn
  | cons b bs ih =>
    rw [List.length_cons] at h
    rw [writeRun]
    by_cases h' : a < 4096
    · rw [memWrite_eq_ok ha h']
      have hb : bs ≠ [] := by rintro rfl; simp at h; omega
      simp only
      rw [ih _ hb (by omega) (by omega), show max (a + 1) 4096 = max a 4096 by omega]
    · rw [memWrite_eq_range (by omega), show max a 4096 = a by omega]

/-- All a run of writes can do: write every byte of a run that is wholly writable, or fault. -/
theorem writeRun_ok {m m' : Memory} {a : Nat} {bs : List Byte} (h : writeRun m a bs = .ok m') :
    m' = placeBytes m a bs ∧ (bs = [] ∨ 80 ≤ a ∧ a + bs.length ≤ 4096) := by
  by_cases hb : bs = []
  · subst hb; rw [writeRun] at h; exact ⟨(Except.ok.inj h).symm, .inl rfl⟩
  · by_cases h1 : a < 80
    · rw [writeRun_eq_font m hb h1] at h; cases h
    · by_cases h2 : 4096 < a + bs.length
      · rw [writeRun_eq_range m hb (by omega) h2] at h; cases h
      · rw [writeRun_eq_ok m (.inr ⟨by omega, by omega⟩)] at h
        exact ⟨(Except.ok.inj h).symm, .inr ⟨by omega, by omega⟩⟩

/-- A run of reads that answers lies inside MEM. -/
theorem readRun_ok {m : Memory} {a n : Nat} {bs : List Byte} (h : readRun m a n = .ok bs) :
    bs = (List.range' a n).map m.read ∧ (n = 0 ∨ a + n ≤ 4096) := by
  by_cases h1 : n = 0 ∨ a + n ≤ 4096
  · rw [readRun_eq_ok m h1] at h; exact ⟨(Except.ok.inj h).symm, h1⟩
  · rw [readRun_eq_error m (by omega) (by omega)] at h; cases h

end Sys2Proof.Machine
end

