-- ==== Sys2Proof/Laws/Ops.lean ====
section
/-! SUPPORT. One lemma for what each shared operation can do: the stack, I-relative runs, keys, taking a
stop, the execute phase, fetch, and a STEP. -/

namespace Sys2Proof.Machine

/-! ## The call stack (10_state.md R27) -/

theorem push_eq_ok {s : State} (h : s.sp.val < 16) (w : Word) :
    s.push w = .ok { s with stack := s.stack.set s.sp.val w, sp := ⟨s.sp.val + 1, by omega⟩ } := by
  simp [State.push, h]

theorem push_eq_error {s : State} (h : s.sp.val = 16) (w : Word) :
    s.push w = .error .stackOverflow := by
  simp [State.push, h]

theorem pop_eq_ok {s : State} (h : 0 < s.sp.val) :
    s.pop = .ok (s.stack[s.sp.val - 1]'(by omega),
      { s with sp := ⟨s.sp.val - 1, by omega⟩ }) := by
  simp [State.pop, h]

theorem pop_eq_error {s : State} (h : s.sp.val = 0) : s.pop = .error .stackUnderflow := by
  simp [State.pop, h]

/-- All a push can do. -/
theorem push_cases (s : State) (w : Word) :
    (∃ h : s.sp.val < 16, s.push w =
      .ok { s with stack := s.stack.set s.sp.val w, sp := ⟨s.sp.val + 1, by omega⟩ }) ∨
    (s.sp.val = 16 ∧ s.push w = .error .stackOverflow) := by
  by_cases h : s.sp.val < 16
  · exact .inl ⟨h, push_eq_ok h w⟩
  · exact .inr ⟨by omega, push_eq_error (by omega) w⟩

/-- All a pop can do. -/
theorem pop_cases (s : State) :
    (∃ h : 0 < s.sp.val, s.pop = .ok (s.stack[s.sp.val - 1]'(by omega),
      { s with sp := ⟨s.sp.val - 1, by omega⟩ })) ∨
    (s.sp.val = 0 ∧ s.pop = .error .stackUnderflow) := by
  by_cases h : 0 < s.sp.val
  · exact .inl ⟨h, pop_eq_ok h⟩
  · exact .inr ⟨by omega, pop_eq_error (by omega)⟩

/-! ## I-relative runs (20_memory.md R57, 42_index_memory.md R156) -/

theorem readAtI_cases (s : State) (n : Nat) :
    ((n = 0 ∨ s.i.toNat + n ≤ 4096) ∧
      s.readAtI n = .ok ((List.range' s.i.toNat n).map s.mem.read)) ∨
    (n ≠ 0 ∧ 4096 < s.i.toNat + n ∧ s.readAtI n = .error (.memRange (max s.i.toNat 4096))) := by
  unfold State.readAtI State.base
  by_cases h : n = 0 ∨ s.i.toNat + n ≤ 4096
  · exact .inl ⟨h, readRun_eq_ok _ h⟩
  · exact .inr ⟨by omega, by omega, readRun_eq_error _ (by omega) (by omega)⟩

theorem writeAtI_cases (s : State) {bs : List Byte} (hn : bs ≠ []) :
    (80 ≤ s.i.toNat ∧ s.i.toNat + bs.length ≤ 4096 ∧
      s.writeAtI bs = .ok (s.setMem (placeBytes s.mem s.i.toNat bs))) ∨
    (s.i.toNat < 80 ∧ s.writeAtI bs = .error (.fontWrite s.i.toNat)) ∨
    (80 ≤ s.i.toNat ∧ 4096 < s.i.toNat + bs.length ∧
      s.writeAtI bs = .error (.memRange (max s.i.toNat 4096))) := by
  unfold State.writeAtI State.base
  by_cases h1 : s.i.toNat < 80
  · exact .inr (.inl ⟨h1, by rw [writeRun_eq_font _ hn h1]⟩)
  · by_cases h2 : 4096 < s.i.toNat + bs.length
    · exact .inr (.inr ⟨by omega, h2, by rw [writeRun_eq_range _ hn (by omega) h2]⟩)
    · exact .inl ⟨by omega, by omega, by rw [writeRun_eq_ok _ (.inr ⟨by omega, by omega⟩)]⟩

@[simp] theorem bcdDigits_length (b : Byte) : (bcdDigits b).length = 3 := rfl

@[simp] theorem regsUpTo_length (s : State) (x : Reg) : (s.regsUpTo x).length = x.val + 1 := by
  have := x.isLt
  simp only [State.regsUpTo, List.length_take, Vector.length_toList]
  omega

theorem regsUpTo_getD (s : State) (x : Reg) {k : Nat} (h : k ≤ x.val) :
    (s.regsUpTo x).getD k 0 = s.getV ⟨k, by have := x.isLt; omega⟩ := by
  have hx := x.isLt
  simp [State.regsUpTo, State.getV, show k < x.val + 1 by omega]

/-! ## Keys -/

theorem keyOf_cases (b : Byte) :
    (∃ h : b.toNat < 16, keyOf b = .ok ⟨b.toNat, h⟩) ∨
    (16 ≤ b.toNat ∧ keyOf b = .error (.keyRange b)) := by
  by_cases h : b.toNat < 16
  · exact .inl ⟨h, by simp [keyOf, h]⟩
  · exact .inr ⟨by omega, by simp [keyOf, h]⟩

/-! ## The execute phase (00_scope.md R12) and taking a fault (60_exceptions.md R214) -/

theorem execute_ok {i : Instr} {s t : State} {phase : State → Except Fault State}
    (h : phase s.advance = .ok t) : s.execute i phase = .next t := by
  rw [State.execute, h]

theorem execute_error {i : Instr} {s : State} {f : Fault} {phase : State → Except Fault State}
    (h : phase s.advance = .error f) : s.execute i phase = .next (s.takeFault (encodeWord i) f) := by
  rw [State.execute, h]

/-- All an execute phase can do: its effect on the state with pc advanced, or the fault it raises taken
at the state before. -/
theorem execute_cases (i : Instr) (s : State) (phase : State → Except Fault State) :
    (∃ t, phase s.advance = .ok t ∧ s.execute i phase = .next t) ∨
    (∃ f, phase s.advance = .error f ∧
      s.execute i phase = .next (s.takeFault (encodeWord i) f)) := by
  cases h : phase s.advance with
  | ok t => exact .inl ⟨t, rfl, execute_ok h⟩
  | error f => exact .inr ⟨f, rfl, execute_error h⟩

/-- A taken fault as the STATUS record of R214. -/
theorem takeFault_eq (s : State) (op : Word) (f : Fault) :
    s.takeFault op f = s.faultedAs f.cause op.toNat f.addr.toNat := by
  simp [State.takeFault, State.stop, State.setStatus, State.faultedAs]

/-! ## Fetch (30_encoding.md R72-R74) -/

theorem fetch_halt {s : State} (h : 4096 ≤ s.pc.toNat) : s.fetch = .halt := by
  simp [State.fetch, h]

theorem fetch_fault {s : State} (h : s.pc.toNat = 0xFFF) :
    s.fetch = .fault (.memRange 0x1000) := by
  rw [State.fetch, if_neg (by simp only [Config.memSize]; omega),
    readRun_eq_error _ (by omega) (by omega), h]
  rfl

theorem fetch_bytes {s : State} (h : s.pc.toNat < 0xFFF) :
    s.fetch = .bytes [s.mem.read s.pc.toNat, s.mem.read (s.pc.toNat + 1)] := by
  rw [State.fetch, if_neg (by simp only [Config.memSize]; omega), readRun_eq_ok _ (by omega)]
  rfl

/-! ## A STEP (60_exceptions.md R231, R232) -/

/-- The word a fetch composes at pc (30_encoding.md R73). -/
abbrev State.wordAtPc (s : State) : Word :=
  opcodeOf (s.mem.read s.pc.toNat) (s.mem.read (s.pc.toNat + 1))

/-- All a STEP can do, whatever the instructions mean. -/
theorem fetchDecodeExecute_cases (run : Instr → State → Host.Outcome State Fault Refusal)
    (s : State) :
    (s.status.state ≠ .running ∧ fetchDecodeExecute run s = .next s) ∨
    (s.status.state = .running ∧
      ((4096 ≤ s.pc.toNat ∧ fetchDecodeExecute run s = .next s.takeHalt) ∨
       (s.pc.toNat = 0xFFF ∧
         fetchDecodeExecute run s = .next (s.takeFault 0 (.memRange 0x1000))) ∨
       (s.pc.toNat < 0xFFF ∧
         ((∃ i, decodeWord s.wordAtPc = .ok i ∧ fetchDecodeExecute run s = run i s) ∨
          (decodeWord s.wordAtPc = .error .unrecognized ∧
            fetchDecodeExecute run s = .next s.advance))))) := by
  cases hs : s.status.state
  case running =>
    refine .inr ⟨rfl, ?_⟩
    simp only [fetchDecodeExecute, hs]
    rcases Nat.lt_trichotomy s.pc.toNat 0xFFF with h | h | h
    · refine .inr (.inr ⟨h, ?_⟩)
      rw [fetch_bytes h]
      simp only [decode]
      cases hd : decodeWord s.wordAtPc with
      | ok i => exact .inl ⟨i, rfl, rfl⟩
      | error e =>
        refine .inr ⟨?_, rfl⟩
        rw [decodeWord] at hd
        split at hd <;> simp_all
    · exact .inr (.inl ⟨h, by rw [fetch_fault h]⟩)
    · exact .inl ⟨by omega, by rw [fetch_halt (by omega)]⟩
  all_goals exact .inl ⟨by simp, by simp [fetchDecodeExecute, hs]⟩

/-- A STEP whose fetched word decodes to `i` runs `i`. -/
theorem fetchDecodeExecute_ok {run : Instr → State → Host.Outcome State Fault Refusal} {s : State}
    {i : Instr} (hs : s.status.state = .running) (hp : s.pc.toNat < 0xFFF)
    (hd : decodeWord s.wordAtPc = .ok i) : fetchDecodeExecute run s = run i s := by
  simp only [fetchDecodeExecute, hs, fetch_bytes hp, decode, hd]

/-- A STEP whose fetched word is UNRECOGNIZED advances pc. -/
theorem fetchDecodeExecute_unrecognized {run : Instr → State → Host.Outcome State Fault Refusal}
    {s : State} (hs : s.status.state = .running) (hp : s.pc.toNat < 0xFFF)
    (hd : decodeWord s.wordAtPc = .error .unrecognized) :
    fetchDecodeExecute run s = .next s.advance := by
  simp only [fetchDecodeExecute, hs, fetch_bytes hp, decode, hd]

/-! ## LOAD -/

/-- `Memory.normal` has the canonical form. -/
theorem normal_wf (m : Memory) : m.normal.wf := by
  have : ∀ (l : List Nat) (acc : Memory), (∀ a ∈ l, a < 4096) → acc.wf →
      (l.foldl (fun acc a => acc.write a (m.read a)) acc).wf := by
    intro l
    induction l with
    | nil => exact fun _ _ h => h
    | cons a as ih =>
      exact fun acc hl h => ih _ (fun b hb => hl b (List.mem_cons_of_mem _ hb))
        (Memory.wf_write h (hl a List.mem_cons_self) _)
  unfold Memory.normal
  exact this _ _ (fun a ha => List.mem_range.mp ha) Memory.wf_nil

/-! ## Reporting (60_exceptions.md R215) -/

/-- A state that is not FAULTED records no fault. -/
theorem fault?_of_not_faulted {t : State} (h : ¬ t.faulted) : t.fault? = none := by
  unfold State.fault?
  split <;> simp_all

/-- A taken fault is the fault the state records. -/
theorem fault?_takeFault (s : State) (op : Word) (f : Fault) :
    ∃ g, (s.takeFault op f).fault? = some g ∧ g.cause = f.cause ∧ g.addr = f.addr := by
  cases f
  case keyRange k | memRange a | fontWrite a =>
    refine ⟨_, rfl, rfl, BitVec.eq_of_toNat_eq ?_⟩
    simp [Fault.addr, State.takeFault, State.stop, State.setStatus]
  all_goals exact ⟨_, rfl, rfl, rfl⟩

/-- A next state that is not FAULTED is reported as it is. -/
theorem reported_of_not_faulted {t : State} (h : ¬ t.faulted) : reported (.next t) = .next t := by
  simp only [reported, fault?_of_not_faulted h]

/-- A next state that records a fault is reported as that fault. -/
theorem reported_of_fault {t : State} {f : Fault} (h : t.fault? = some f) :
    reported (.next t) = .fault f := by
  simp only [reported, h]

/-! ## Operands as integers -/

@[simp] theorem immAddr_toNat (nnn : Imm12) : (immAddr nnn).toNat = nnn.toNat := by
  have := nnn.isLt; simp only [immAddr, BitVec.toNat_setWidth]; omega

@[simp] theorem zext16_toNat (b : Byte) : (zext16 b).toNat = b.toNat := by
  have := b.isLt; simp only [zext16, BitVec.toNat_setWidth]; omega

end Sys2Proof.Machine
end

