-- ==== Sys2Proof/Laws/Exec.lean ====
section
/-! SUPPORT. Every instruction as its execute phase, and all that executing one can do. -/

namespace Sys2Proof.Machine

/-- The execute phase of each instruction, which sees pc advanced (00_scope.md R12): the body of its
meaning. `exec_eq_execute` ties it to `exec`. -/
def phase : Instr → State → Except Fault State
  | .cls, s => .ok ((s.setFb Framebuffer.clear).setDirty true)
  | .ret, s =>
    match s.pop with
    | .ok (target, t) => .ok (t.setPc target)
    | .error f => .error f
  | .jp nnn, s => .ok (s.setPc (immAddr nnn))
  | .call nnn, s =>
    match s.push s.pc with
    | .ok t => .ok (t.setPc (immAddr nnn))
    | .error f => .error f
  | .seImm x nn, s => .ok (s.skipIf (s.getV x == nn))
  | .sneImm x nn, s => .ok (s.skipIf (s.getV x != nn))
  | .seReg x y, s => .ok (s.skipIf (s.getV x == s.getV y))
  | .ldImm x nn, s => .ok (s.setV x nn)
  | .addImm x nn, s => .ok (s.setV x (addResult (s.getV x) nn))
  | .ldReg x y, s => .ok (s.setV x (s.getV y))
  | .orReg x y, s => .ok (s.setV x (s.getV x ||| s.getV y))
  | .andReg x y, s => .ok (s.setV x (s.getV x &&& s.getV y))
  | .xorReg x y, s => .ok (s.setV x (s.getV x ^^^ s.getV y))
  | .addReg x y, s => .ok (s.setVFlag x (addResult (s.getV x) (s.getV y)) (carry (s.getV x) (s.getV y)))
  | .subReg x y, s =>
    .ok (s.setVFlag x (subResult (s.getV x) (s.getV y)) (notBorrow (s.getV x) (s.getV y)))
  | .shr x _, s => .ok (s.setVFlag x (shrResult (s.getV x)) (shrOut (s.getV x)))
  | .subnReg x y, s =>
    .ok (s.setVFlag x (subResult (s.getV y) (s.getV x)) (notBorrow (s.getV y) (s.getV x)))
  | .shl x _, s => .ok (s.setVFlag x (shlResult (s.getV x)) (shlOut (s.getV x)))
  | .sneReg x y, s => .ok (s.skipIf (s.getV x != s.getV y))
  | .ldI nnn, s => .ok (s.setI (immAddr nnn))
  | .jpV0 nnn, s => .ok (s.setPc (zext16 (s.getV 0) + immAddr nnn))
  | .rnd x nn, s => .ok ((s.setV x (Config.randomByte s.draws &&& nn)).nextDraw)
  | .drw x y n, s =>
    match s.readAtI n.toNat with
    | .ok bytes =>
      let d := drawSprite s.fb (s.getV x).toNat (s.getV y).toNat bytes
      .ok (((s.setFb d.fb).setV VF (flagByte d.hit)).setDirty true)
    | .error f => .error f
  | .skp x, s =>
    match keyOf (s.getV x) with
    | .ok k => .ok (s.skipIf (s.getKey k))
    | .error f => .error f
  | .sknp x, s =>
    match keyOf (s.getV x) with
    | .ok k => .ok (s.skipIf (!s.getKey k))
    | .error f => .error f
  | .ldVxDT x, s => .ok (s.setV x s.dt)
  | .ldVxK x, s => .ok (s.setStatus { s.status with state := .waitingKey, waitX := x })
  | .ldDTVx x, s => .ok (s.setDT (s.getV x))
  | .ldSTVx x, s => .ok (s.setST (s.getV x))
  | .addI x, s => .ok (s.setI (low16 (s.i.toNat + (s.getV x).toNat)))
  | .ldF x, s => .ok (s.setI (glyphAddr (s.getV x)))
  | .ldB x, s => s.writeAtI (bcdDigits (s.getV x))
  | .ldMemV x, s => s.writeAtI (s.regsUpTo x)
  | .ldVMem x, s =>
    match s.readAtI (x.val + 1) with
    | .ok bytes => .ok (s.loadRegs bytes)
    | .error f => .error f

/-- Executing an instruction is running its execute phase. -/
theorem exec_eq_execute (i : Instr) (s : State) : exec i s = s.execute i (phase i) := by
  cases i <;> rfl

/-- All that executing an instruction can do: its phase's effect on the state with pc advanced, or the
fault its phase raises, taken at the state itself (60_exceptions.md R214). -/
theorem exec_cases {i : Instr} {s t : State} (h : exec i s = .next t) :
    phase i s.advance = .ok t ∨
    ∃ f, phase i s.advance = .error f ∧ t = s.takeFault (encodeWord i) f := by
  rw [exec_eq_execute] at h
  rcases execute_cases i s (phase i) with ⟨t', h1, h2⟩ | ⟨f, h1, h2⟩
  · rw [h2] at h; cases h; exact .inl h1
  · rw [h2] at h; cases h; exact .inr ⟨f, h1, rfl⟩

/-- An instruction whose phase completes. -/
theorem exec_eq_next {i : Instr} {s t : State} (h : phase i s.advance = .ok t) :
    exec i s = .next t := by
  rw [exec_eq_execute, execute_ok h]

/-- An instruction whose phase faults. -/
theorem exec_eq_fault {i : Instr} {s : State} {f : Fault} (h : phase i s.advance = .error f) :
    exec i s = .next (s.takeFault (encodeWord i) f) := by
  rw [exec_eq_execute, execute_error h]

/-! ## The phases that can fault -/

theorem phase_call_ok (nnn : Imm12) {s : State} (h : s.sp.val < 16) :
    phase (.call nnn) s = .ok { s with
      stack := s.stack.set s.sp.val s.pc, sp := ⟨s.sp.val + 1, by omega⟩, pc := immAddr nnn } := by
  simp only [phase, push_eq_ok h]
  rfl

theorem phase_call_error (nnn : Imm12) {s : State} (h : s.sp.val = 16) :
    phase (.call nnn) s = .error .stackOverflow := by
  simp only [phase, push_eq_error h]

theorem phase_ret_ok {s : State} (h : 0 < s.sp.val) :
    phase .ret s = .ok { s with
      sp := ⟨s.sp.val - 1, by omega⟩, pc := s.stack[s.sp.val - 1]'(by omega) } := by
  simp only [phase, pop_eq_ok h]
  rfl

theorem phase_ret_error {s : State} (h : s.sp.val = 0) : phase .ret s = .error .stackUnderflow := by
  simp only [phase, pop_eq_error h]

/-- The bytes a draw or a register load takes from `I` on. -/
abbrev State.bytesAtI (s : State) (n : Nat) : List Byte := (List.range' s.i.toNat n).map s.mem.read

theorem phase_drw_ok (x y : Reg) {n : Imm4} {s : State} (h : n.toNat = 0 ∨ s.i.toNat + n.toNat ≤ 4096) :
    phase (.drw x y n) s =
      let d := drawSprite s.fb (s.getV x).toNat (s.getV y).toNat (s.bytesAtI n.toNat)
      .ok (((s.setFb d.fb).setV VF (flagByte d.hit)).setDirty true) := by
  rcases readAtI_cases s n.toNat with ⟨_, e⟩ | ⟨h1, h2, _⟩
  · simp only [phase, e]
  · omega

theorem phase_drw_error (x y : Reg) {n : Imm4} {s : State} (h : n.toNat ≠ 0)
    (h' : 4096 < s.i.toNat + n.toNat) :
    phase (.drw x y n) s = .error (.memRange (max s.i.toNat 4096)) := by
  rcases readAtI_cases s n.toNat with ⟨h1, _⟩ | ⟨_, _, e⟩
  · omega
  · simp only [phase, e]

theorem phase_ldVMem_ok {x : Reg} {s : State} (h : s.i.toNat + x.val < 4096) :
    phase (.ldVMem x) s = .ok (s.loadRegs (s.bytesAtI (x.val + 1))) := by
  rcases readAtI_cases s (x.val + 1) with ⟨_, e⟩ | ⟨_, h2, _⟩
  · simp only [phase, e]
  · omega

theorem phase_ldVMem_error {x : Reg} {s : State} (h : 4096 ≤ s.i.toNat + x.val) :
    phase (.ldVMem x) s = .error (.memRange (max s.i.toNat 4096)) := by
  rcases readAtI_cases s (x.val + 1) with ⟨h1, _⟩ | ⟨_, _, e⟩
  · omega
  · simp only [phase, e]

theorem regsUpTo_ne_nil (s : State) (x : Reg) : s.regsUpTo x ≠ [] := fun h => by
  simpa [h] using regsUpTo_length s x

/-! ## What a phase can raise and what it does to STATUS -/

/-- All the faults an execute phase can raise (60_exceptions.md R211). -/
theorem phase_faults {i : Instr} {s : State} {f : Fault} (h : phase i s = .error f) :
    (f = .stackOverflow ∧ s.sp.val = 16) ∨ (f = .stackUnderflow ∧ s.sp.val = 0) ∨
    f = .memRange (max s.i.toNat 4096) ∨ (f = .fontWrite s.i.toNat ∧ s.i.toNat < 80) ∨
    ∃ x, f = .keyRange (s.getV x) ∧ 16 ≤ (s.getV x).toNat := by
  cases i
  case call =>
    rcases push_cases s s.pc with ⟨_, e⟩ | ⟨_, e⟩ <;> simp only [phase, e] at h <;> cases h
    exact .inl ⟨rfl, ‹_›⟩
  case ret =>
    rcases pop_cases s with ⟨_, e⟩ | ⟨_, e⟩ <;> simp only [phase, e] at h <;> cases h
    exact .inr (.inl ⟨rfl, ‹_›⟩)
  case drw x y n =>
    rcases readAtI_cases s n.toNat with ⟨_, e⟩ | ⟨_, _, e⟩ <;> simp only [phase, e] at h <;> cases h
    exact .inr (.inr (.inl rfl))
  case ldVMem x =>
    rcases readAtI_cases s (x.val + 1) with ⟨_, e⟩ | ⟨_, _, e⟩ <;>
      simp only [phase, e] at h <;> cases h
    exact .inr (.inr (.inl rfl))
  case ldB x =>
    rcases writeAtI_cases s (bs := bcdDigits (s.getV x)) (by simp [bcdDigits]) with
      ⟨_, _, e⟩ | ⟨_, e⟩ | ⟨_, _, e⟩ <;> simp only [phase, e] at h <;> cases h <;> simp [*]
  case ldMemV x =>
    rcases writeAtI_cases s (bs := s.regsUpTo x) (regsUpTo_ne_nil _ _) with
      ⟨_, _, e⟩ | ⟨_, e⟩ | ⟨_, _, e⟩ <;> simp only [phase, e] at h <;> cases h <;> simp [*]
  case skp x | sknp x =>
    rcases keyOf_cases (s.getV x) with ⟨_, e⟩ | ⟨_, e⟩ <;> simp only [phase, e] at h <;> cases h
    exact .inr (.inr (.inr (.inr ⟨x, rfl, ‹_›⟩)))
  all_goals cases h

/-- A store's phase replaces MEM and nothing else. -/
theorem writeAtI_eq_ok {s t : State} {bs : List Byte} (h : s.writeAtI bs = .ok t) :
    t = s.setMem t.mem := by
  unfold State.writeAtI at h
  split at h <;> cases h
  rfl

/-- Of the phases that complete, only that of Fx0A writes STATUS (44_timers_keypad.md R193). -/
theorem phase_status {i : Instr} {s t : State} (h : phase i s = .ok t) :
    t.status = s.status ∨
    ∃ x, i = .ldVxK x ∧ t.status = { s.status with state := .waitingKey, waitX := x } := by
  cases i
  case call =>
    rcases push_cases s s.pc with ⟨_, e⟩ | ⟨_, e⟩ <;> simp only [phase, e] at h <;> cases h
    simp [State.setPc]
  case ret =>
    rcases pop_cases s with ⟨_, e⟩ | ⟨_, e⟩ <;> simp only [phase, e] at h <;> cases h
    simp [State.setPc]
  case ldVxK x => cases h; exact .inr ⟨x, rfl, rfl⟩
  case ldB | ldMemV => left; rw [writeAtI_eq_ok h]; rfl
  case drw | skp | sknp | ldVMem =>
    left; simp only [phase] at h; split at h <;> cases h; simp [State.loadRegs]
  all_goals left; cases h; simp

/-! ## STEP(r) -/

/-- The host's random byte reaches no instruction but Cxnn (60_exceptions.md R241). -/
theorem execWith_eq_exec {i : Instr} (h : ∀ x nn, i ≠ .rnd x nn) (r : Byte) (s : State) :
    execWith r i s = exec i s := by
  cases i
  case rnd x nn => exact absurd rfl (h x nn)
  all_goals rfl

/-- `exec` is the meaning with the byte of the free draw (log 2). -/
theorem exec_eq_execWith (i : Instr) (s : State) :
    exec i s = execWith (Config.randomByte s.draws) i s := by
  cases i <;> rfl

end Sys2Proof.Machine
end

