-- ==== Sys2Proof/Laws/PerInstr.lean ====
section
/-! SUPPORT. Facts about each instruction as syntax, one lemma for each constructor. -/

namespace Sys2Proof.Laws.OwnRow

/-- A row of the opcode map accepts the instruction's word and reads the instruction back from it
(30_encoding.md R76). -/
def Statement (i : Instr) : Prop :=
  ∃ r ∈ opcodeTable, r.accepts (encodeWord i) ∧ r.build (encodeWord i) = i

/-- The row with number `k` in the table serves. -/
theorem of_row {i : Instr} (k : Nat) (hk : k < opcodeTable.length)
    (ha : opcodeTable[k].accepts (encodeWord i)) (hb : opcodeTable[k].build (encodeWord i) = i) :
    Statement i :=
  ⟨opcodeTable[k], List.getElem_mem hk, ha, hb⟩

/-! ## The four shapes of a pattern -/

theorem accepts_NNN (f : BitVec 4) (nnn : Imm12) (p : Word) (b : Word → Instr)
    (hp : p.toNat = f.toNat * 4096) : Row.accepts ⟨0xF000, p, b⟩ (wordNNN f nnn) := by
  have := nnn.isLt
  rw [accepts_F000, wordNNN_toNat]
  omega

theorem accepts_XNN (f : BitVec 4) (x : Reg) (nn : Byte) (p : Word) (b : Word → Instr)
    (hp : p.toNat = f.toNat * 4096) : Row.accepts ⟨0xF000, p, b⟩ (wordXNN f x nn) := by
  have := nn.isLt
  rw [accepts_F000, wordXNN_toNat]
  omega

theorem accepts_XYN (f : BitVec 4) (x y : Reg) (n : BitVec 4) (p : Word) (b : Word → Instr)
    (hp : p.toNat = f.toNat * 4096) : Row.accepts ⟨0xF000, p, b⟩ (wordXY f x y n) := by
  have := n.isLt
  rw [accepts_F000, wordXY_toNat]
  omega

theorem accepts_XY (f : BitVec 4) (x y : Reg) (n : BitVec 4) (p : Word) (b : Word → Instr)
    (hp : p.toNat = f.toNat * 4096 + n.toNat) : Row.accepts ⟨0xF00F, p, b⟩ (wordXY f x y n) := by
  have := n.isLt
  rw [accepts_F00F, wordXY_toNat]
  omega

theorem accepts_X (f : BitVec 4) (x : Reg) (nn : Byte) (p : Word) (b : Word → Instr)
    (hp : p.toNat = f.toNat * 4096 + nn.toNat) : Row.accepts ⟨0xF0FF, p, b⟩ (wordXNN f x nn) := by
  have := nn.isLt
  rw [accepts_F0FF, wordXNN_toNat]
  omega

/-! ## The constructors -/

theorem cls : Statement (.cls) :=
  of_row 0 (by decide) (by decide) (rfl)

theorem ret : Statement (.ret) :=
  of_row 1 (by decide) (by decide) (rfl)

theorem jp (nnn : Imm12) : Statement (.jp nnn) :=
  of_row 2 (by decide) (accepts_NNN _ _ _ _ rfl) (congrArg _ (fieldNNN_wordNNN _ _))

theorem call (nnn : Imm12) : Statement (.call nnn) :=
  of_row 3 (by decide) (accepts_NNN _ _ _ _ rfl) (congrArg _ (fieldNNN_wordNNN _ _))

theorem seImm (x : Reg) (nn : Byte) : Statement (.seImm x nn) :=
  of_row 4 (by decide) (accepts_XNN _ _ _ _ _ rfl) (congrArg₂ _ (fieldX_wordXNN _ _ _) (fieldNN_wordXNN _ _ _))

theorem sneImm (x : Reg) (nn : Byte) : Statement (.sneImm x nn) :=
  of_row 5 (by decide) (accepts_XNN _ _ _ _ _ rfl) (congrArg₂ _ (fieldX_wordXNN _ _ _) (fieldNN_wordXNN _ _ _))

theorem seReg (x : Reg) (y : Reg) : Statement (.seReg x y) :=
  of_row 6 (by decide) (accepts_XY _ _ _ _ _ _ rfl) (congrArg₂ _ (fieldX_wordXY _ _ _ _) (fieldY_wordXY _ _ _ _))

theorem ldImm (x : Reg) (nn : Byte) : Statement (.ldImm x nn) :=
  of_row 7 (by decide) (accepts_XNN _ _ _ _ _ rfl) (congrArg₂ _ (fieldX_wordXNN _ _ _) (fieldNN_wordXNN _ _ _))

theorem addImm (x : Reg) (nn : Byte) : Statement (.addImm x nn) :=
  of_row 8 (by decide) (accepts_XNN _ _ _ _ _ rfl) (congrArg₂ _ (fieldX_wordXNN _ _ _) (fieldNN_wordXNN _ _ _))

theorem ldReg (x : Reg) (y : Reg) : Statement (.ldReg x y) :=
  of_row 9 (by decide) (accepts_XY _ _ _ _ _ _ rfl) (congrArg₂ _ (fieldX_wordXY _ _ _ _) (fieldY_wordXY _ _ _ _))

theorem orReg (x : Reg) (y : Reg) : Statement (.orReg x y) :=
  of_row 10 (by decide) (accepts_XY _ _ _ _ _ _ rfl) (congrArg₂ _ (fieldX_wordXY _ _ _ _) (fieldY_wordXY _ _ _ _))

theorem andReg (x : Reg) (y : Reg) : Statement (.andReg x y) :=
  of_row 11 (by decide) (accepts_XY _ _ _ _ _ _ rfl) (congrArg₂ _ (fieldX_wordXY _ _ _ _) (fieldY_wordXY _ _ _ _))

theorem xorReg (x : Reg) (y : Reg) : Statement (.xorReg x y) :=
  of_row 12 (by decide) (accepts_XY _ _ _ _ _ _ rfl) (congrArg₂ _ (fieldX_wordXY _ _ _ _) (fieldY_wordXY _ _ _ _))

theorem addReg (x : Reg) (y : Reg) : Statement (.addReg x y) :=
  of_row 13 (by decide) (accepts_XY _ _ _ _ _ _ rfl) (congrArg₂ _ (fieldX_wordXY _ _ _ _) (fieldY_wordXY _ _ _ _))

theorem subReg (x : Reg) (y : Reg) : Statement (.subReg x y) :=
  of_row 14 (by decide) (accepts_XY _ _ _ _ _ _ rfl) (congrArg₂ _ (fieldX_wordXY _ _ _ _) (fieldY_wordXY _ _ _ _))

theorem shr (x : Reg) (y : Reg) : Statement (.shr x y) :=
  of_row 15 (by decide) (accepts_XY _ _ _ _ _ _ rfl) (congrArg₂ _ (fieldX_wordXY _ _ _ _) (fieldY_wordXY _ _ _ _))

theorem subnReg (x : Reg) (y : Reg) : Statement (.subnReg x y) :=
  of_row 16 (by decide) (accepts_XY _ _ _ _ _ _ rfl) (congrArg₂ _ (fieldX_wordXY _ _ _ _) (fieldY_wordXY _ _ _ _))

theorem shl (x : Reg) (y : Reg) : Statement (.shl x y) :=
  of_row 17 (by decide) (accepts_XY _ _ _ _ _ _ rfl) (congrArg₂ _ (fieldX_wordXY _ _ _ _) (fieldY_wordXY _ _ _ _))

theorem sneReg (x : Reg) (y : Reg) : Statement (.sneReg x y) :=
  of_row 18 (by decide) (accepts_XY _ _ _ _ _ _ rfl) (congrArg₂ _ (fieldX_wordXY _ _ _ _) (fieldY_wordXY _ _ _ _))

theorem ldI (nnn : Imm12) : Statement (.ldI nnn) :=
  of_row 19 (by decide) (accepts_NNN _ _ _ _ rfl) (congrArg _ (fieldNNN_wordNNN _ _))

theorem jpV0 (nnn : Imm12) : Statement (.jpV0 nnn) :=
  of_row 20 (by decide) (accepts_NNN _ _ _ _ rfl) (congrArg _ (fieldNNN_wordNNN _ _))

theorem rnd (x : Reg) (nn : Byte) : Statement (.rnd x nn) :=
  of_row 21 (by decide) (accepts_XNN _ _ _ _ _ rfl) (congrArg₂ _ (fieldX_wordXNN _ _ _) (fieldNN_wordXNN _ _ _))

theorem drw (x : Reg) (y : Reg) (n : Imm4) : Statement (.drw x y n) :=
  of_row 22 (by decide) (accepts_XYN _ _ _ _ _ _ rfl) (by
    simp [opcodeTable, opcodeRows1, opcodeRows2, encodeWord])

theorem skp (x : Reg) : Statement (.skp x) :=
  of_row 23 (by decide) (accepts_X _ _ _ _ _ rfl) (congrArg _ (fieldX_wordXNN _ _ _))

theorem sknp (x : Reg) : Statement (.sknp x) :=
  of_row 24 (by decide) (accepts_X _ _ _ _ _ rfl) (congrArg _ (fieldX_wordXNN _ _ _))

theorem ldVxDT (x : Reg) : Statement (.ldVxDT x) :=
  of_row 25 (by decide) (accepts_X _ _ _ _ _ rfl) (congrArg _ (fieldX_wordXNN _ _ _))

theorem ldVxK (x : Reg) : Statement (.ldVxK x) :=
  of_row 26 (by decide) (accepts_X _ _ _ _ _ rfl) (congrArg _ (fieldX_wordXNN _ _ _))

theorem ldDTVx (x : Reg) : Statement (.ldDTVx x) :=
  of_row 27 (by decide) (accepts_X _ _ _ _ _ rfl) (congrArg _ (fieldX_wordXNN _ _ _))

theorem ldSTVx (x : Reg) : Statement (.ldSTVx x) :=
  of_row 28 (by decide) (accepts_X _ _ _ _ _ rfl) (congrArg _ (fieldX_wordXNN _ _ _))

theorem addI (x : Reg) : Statement (.addI x) :=
  of_row 29 (by decide) (accepts_X _ _ _ _ _ rfl) (congrArg _ (fieldX_wordXNN _ _ _))

theorem ldF (x : Reg) : Statement (.ldF x) :=
  of_row 30 (by decide) (accepts_X _ _ _ _ _ rfl) (congrArg _ (fieldX_wordXNN _ _ _))

theorem ldB (x : Reg) : Statement (.ldB x) :=
  of_row 31 (by decide) (accepts_X _ _ _ _ _ rfl) (congrArg _ (fieldX_wordXNN _ _ _))

theorem ldMemV (x : Reg) : Statement (.ldMemV x) :=
  of_row 32 (by decide) (accepts_X _ _ _ _ _ rfl) (congrArg _ (fieldX_wordXNN _ _ _))

theorem ldVMem (x : Reg) : Statement (.ldVMem x) :=
  of_row 33 (by decide) (accepts_X _ _ _ _ _ rfl) (congrArg _ (fieldX_wordXNN _ _ _))

end Sys2Proof.Laws.OwnRow
end

