-- ==== Sys2Proof/Tests/Slice0.lean ====
section
/-! SUPPORT. Tests: the well-formedness checks on ill-formed terms, every constructor's decoding from a
word written out from the pattern of 30_encoding.md R76, vectors of 95_test_vectors.md (each named), and
for each statement with hypotheses a state and operands that meet them all. -/

namespace Sys2Proof.Tests

open Sys2Proof Sys2Proof.Machine

/-! ## Well-formedness -/

theorem test_wf_instruction : (Instr.drw 0xF 0 15).wellFormed = true := by decide

/-- R71: the fields are 4, 8 and 12 bits wide. -/
theorem test_wf_refuses_wide_fields :
    fitsField 4 16 = false ∧ fitsField 8 256 = false ∧ fitsField 12 4096 = false := by decide

/-- V171, V172 -/
theorem test_wf_image_length :
    imageWellFormed (List.replicate 3584 0) = true ∧ imageWellFormed (List.replicate 3585 0) = false := by
  unfold imageWellFormed; constructor <;> rw [List.length_replicate] <;> decide

/-- R235: a key index is below 16. -/
theorem test_wf_refuses_key_16 : keyWellFormed 15 = true ∧ keyWellFormed 16 = false := by decide

/-! ## Decoding: words written out from R76 -/

theorem test_decode_system :
    decode [0b00000000, 0b11100000] = .ok .cls ∧ decode [0b00000000, 0b11101110] = .ok .ret := by decide

theorem test_decode_jumps :
    decode [0b00010010, 0b00110100] = .ok (.jp 0x234) ∧
    decode [0b00101010, 0b10111100] = .ok (.call 0xABC) ∧
    decode [0b10111111, 0b11111110] = .ok (.jpV0 0xFFE) := by decide

theorem test_decode_skips :
    decode [0b00110011, 0b00010001] = .ok (.seImm 3 0x11) ∧
    decode [0b01000011, 0b00010001] = .ok (.sneImm 3 0x11) ∧
    decode [0b01010001, 0b00100000] = .ok (.seReg 1 2) ∧
    decode [0b10010001, 0b00100000] = .ok (.sneReg 1 2) := by decide

theorem test_decode_immediates :
    decode [0b01101010, 0b01000010] = .ok (.ldImm 0xA 0x42) ∧
    decode [0b01110010, 0b11111111] = .ok (.addImm 2 0xFF) ∧
    decode [0b10100011, 0b00000001] = .ok (.ldI 0x301) ∧
    decode [0b11000011, 0b00001111] = .ok (.rnd 3 0x0F) := by decide

theorem test_decode_registers :
    decode [0b10000001, 0b01010000] = .ok (.ldReg 1 5) ∧
    decode [0b10000001, 0b00100001] = .ok (.orReg 1 2) ∧
    decode [0b10000001, 0b00100010] = .ok (.andReg 1 2) ∧
    decode [0b10000001, 0b00100011] = .ok (.xorReg 1 2) ∧
    decode [0b10000001, 0b00100100] = .ok (.addReg 1 2) := by decide

theorem test_decode_registers' :
    decode [0b10000001, 0b00100101] = .ok (.subReg 1 2) ∧
    decode [0b10000100, 0b01110110] = .ok (.shr 4 7) ∧
    decode [0b10000001, 0b00100111] = .ok (.subnReg 1 2) ∧
    decode [0b10000100, 0b01111110] = .ok (.shl 4 7) := by decide

theorem test_decode_draw_and_keys :
    decode [0b11010000, 0b00010101] = .ok (.drw 0 1 5) ∧
    decode [0b11100101, 0b10011110] = .ok (.skp 5) ∧
    decode [0b11100101, 0b10100001] = .ok (.sknp 5) := by decide

theorem test_decode_f_family :
    decode [0b11110011, 0b00000111] = .ok (.ldVxDT 3) ∧
    decode [0b11110011, 0b00001010] = .ok (.ldVxK 3) ∧
    decode [0b11110011, 0b00010101] = .ok (.ldDTVx 3) ∧
    decode [0b11110011, 0b00011000] = .ok (.ldSTVx 3) ∧
    decode [0b11110001, 0b00011110] = .ok (.addI 1) := by decide

theorem test_decode_f_family' :
    decode [0b11110010, 0b00101001] = .ok (.ldF 2) ∧
    decode [0b11110000, 0b00110011] = .ok (.ldB 0) ∧
    decode [0b11110010, 0b01010101] = .ok (.ldMemV 2) ∧
    decode [0b11110010, 0b01100101] = .ok (.ldVMem 2) := by decide

/-- V2-V8: one word of each listed set (R78), and its first and last words. -/
theorem test_decode_unrecognized :
    ∀ op ∈ [0x0000, 0x0123, 0x00E1, 0x0FFF, 0x5121, 0x8128, 0x812F, 0x9121, 0xE19F, 0xF130, 0xFFFF],
      decodeWord (BitVec.ofNat 16 op) = .error .unrecognized := by decide

theorem test_decode_wrong_length :
    decode [0x12] ≠ .ok (.jp 0x200) ∧ decodeTableWord 16 0x8124 = some (.addReg 1 2) := by decide

/-! ## One STEP

`at200 op` is the state after LOAD of the two bytes of `op`; `after s p` says that the STEP of `s`
completes in a state that meets `p`. -/

/-- The state after LOAD with the word `op` at 0x200. -/
def at200 (op : Nat) : State := State.reset.withFetchWord 16 op

/-- `at200` with V1 and V2. -/
def withV12 (op : Nat) (a b : Byte) : State := ((at200 op).setV 1 a).setV 2 b

/-- `at200` with I. -/
def withI (op : Nat) (i : Word) : State := (at200 op).setI i

/-- `s` with one byte stored. -/
def stored (s : State) (a : Nat) (b : Byte) : State := s.setMem (s.mem.write a b)

/-- The STEP of `s` answers a next state that meets `p`. -/
def after (s : State) (p : State → Bool) : Bool :=
  match step s with
  | .next t => p t
  | .fault _ | .refused _ => false

/-- The STEP of `s` is this fault and changes only STATUS. -/
def faults (s : State) (c : Cause) (op addr : Nat) : Bool :=
  after s fun t => decide (t = s.faultedAs c op addr)

/-! ### Fetch (2.1) -/

/-- V3 -/
theorem test_unrecognized : after (at200 0x0000) (fun t => decide (t = (at200 0x0000).setPc 0x202)) := by
  decide

/-- V9 -/
theorem test_halt : after ((at200 0).setPc 0x1000) (fun t =>
    t.pc == 0x1000 && t.status == { state := .halted, waitX := 0, cause := .haltEndOfMemory
                                    faultPc := 0x1000, faultOpcode := 0, faultAddr := 0x1000 }) := by decide

/-- V10 -/
theorem test_fetch_fault : faults ((at200 0).setPc 0xFFF) .memRange 0 0x1000 := by decide

/-- V12: no alignment check. -/
theorem test_odd_pc : after (stored (stored ((at200 0).setPc 0x201) 0x201 0x60) 0x202 0x05) (fun t =>
    t.pc == 0x203 && t.getV 0 == 5) := by decide

/-! ### Control transfer (2.2) -/

/-- V20 -/
theorem test_ret_underflow : faults (at200 0x00EE) .stackUnderflow 0x00EE 0 := by decide

/-- V21 -/
theorem test_ret : after { at200 0x00EE with sp := 2, stack := State.reset.stack.set 1 0x31A } (fun t =>
    t.sp == 1 && t.pc == 0x31A && t.stack[1] == 0x31A) := by decide

/-- V1 -/
theorem test_jp : after (at200 0x1234) (fun t => t.pc == 0x234) := by decide

/-- V25 (at 0x200) -/
theorem test_call : after { at200 0x2ABC with sp := 15 } (fun t =>
    t.stack[15] == 0x202 && t.sp == 16 && t.pc == 0xABC) := by decide

/-- V26 (at 0x200) -/
theorem test_call_overflow : faults { at200 0x2ABC with sp := 16 } .stackOverflow 0x2ABC 16 := by decide

/-- V27, V28 -/
theorem test_se_imm : after ((at200 0x3310).setV 3 0x10) (fun t => t.pc == 0x204) ∧
    after ((at200 0x3311).setV 3 0x10) (fun t => t.pc == 0x202) := by decide

/-- V30, V31 -/
theorem test_sne_imm : after ((at200 0x4311).setV 3 0x10) (fun t => t.pc == 0x204) ∧
    after ((at200 0x4310).setV 3 0x10) (fun t => t.pc == 0x202) := by decide

/-- V32, V33 -/
theorem test_se_reg : after (withV12 0x5120 7 7) (fun t => t.pc == 0x204) ∧
    after (withV12 0x5120 7 8) (fun t => t.pc == 0x202) := by decide

/-- V35, V36 -/
theorem test_sne_reg : after (withV12 0x9120 7 8) (fun t => t.pc == 0x204) ∧
    after (withV12 0x9110 7 8) (fun t => t.pc == 0x202) := by decide

/-- V38, V39: the sum is not reduced to 12 bits. -/
theorem test_jp_v0 : after ((at200 0xBFFF).setV 0 0x01) (fun t => t.pc == 0x1000) ∧
    after ((at200 0xBFFF).setV 0 0xFF) (fun t => t.pc == 0x10FE) := by decide

/-! ### Registers (2.3) -/

/-- V51 -/
theorem test_ld_imm : after (at200 0x6F99) (fun t => t.getV 0xF == 0x99 && t.pc == 0x202) := by decide

/-- V52 -/
theorem test_add_imm : after (((at200 0x7201).setV 2 0xFF).setV 0xF 0x55) (fun t =>
    t.getV 2 == 0 && t.getV 0xF == 0x55) := by decide

/-- V55 -/
theorem test_ld_reg : after ((at200 0x8150).setV 5 0x33) (fun t => t.getV 1 == 0x33) := by decide

/-- V56 -/
theorem test_or : after ((withV12 0x8121 0x0F 0xF0).setV 0xF 7) (fun t =>
    t.getV 1 == 0xFF && t.getV 0xF == 7) := by decide

/-- V57 -/
theorem test_and : after (withV12 0x8122 0x3C 0x0F) (fun t => t.getV 1 == 0x0C) := by decide

/-- V58 -/
theorem test_xor : after (withV12 0x8123 0x3C 0x0F) (fun t => t.getV 1 == 0x33) := by decide

/-- W3, V64 (x = F) -/
theorem test_add_reg : after (withV12 0x8124 0xFA 0x0A) (fun t => t.getV 1 == 4 && t.getV 0xF == 1) ∧
    after (((at200 0x8F14).setV 0xF 0x80).setV 1 0x90) (fun t => t.getV 0xF == 1) := by decide

/-- V60, V65 (y = F: the old VF is the operand) -/
theorem test_add_reg' : after (withV12 0x8124 0xFF 0x00) (fun t => t.getV 1 == 0xFF && t.getV 0xF == 0) ∧
    after (((at200 0x81F4).setV 1 0x10).setV 0xF 1) (fun t => t.getV 1 == 0x11 && t.getV 0xF == 0) := by
  decide

/-- W4, V66, V68 -/
theorem test_sub_reg : after (withV12 0x8125 0x05 0x0A) (fun t => t.getV 1 == 0xFB && t.getV 0xF == 0) ∧
    after (withV12 0x8125 0x42 0x42) (fun t => t.getV 1 == 0 && t.getV 0xF == 1) ∧
    after (((at200 0x8F15).setV 0xF 5).setV 1 0x10) (fun t => t.getV 0xF == 0) := by decide

/-- V69, V70 (y is ignored) -/
theorem test_shr : after ((at200 0x8406).setV 4 5) (fun t => t.getV 4 == 2 && t.getV 0xF == 1) ∧
    after (((at200 0x8476).setV 4 4).setV 7 0xFF) (fun t => t.getV 4 == 2 && t.getV 0xF == 0) := by decide

/-- V73, V74 -/
theorem test_subn_reg : after (withV12 0x8127 0x05 0x0A) (fun t => t.getV 1 == 5 && t.getV 0xF == 1) ∧
    after (withV12 0x8127 0x0A 0x05) (fun t => t.getV 1 == 0xFB && t.getV 0xF == 0) := by decide

/-- V77, V80 -/
theorem test_shl : after ((at200 0x840E).setV 4 0x81) (fun t => t.getV 4 == 2 && t.getV 0xF == 1) ∧
    after ((at200 0x8F0E).setV 0xF 0x40) (fun t => t.getV 0xF == 0) := by decide

/-- V81 -/
theorem test_rnd : (match stepWith 0xA5 (at200 0xC30F) with
    | .next t => t.getV 3 == 0x05 && t.pc == 0x202
    | .fault _ | .refused _ => false) = true := by decide

/-- V82, whatever the byte: the one test that quantifies over the free value. -/
theorem test_rnd_zero_mask (r : Byte) : ∃ t, execWith r (.rnd 3 0) (at200 0xC300) = .next t ∧ t.getV 3 = 0 :=
  ⟨_, rfl, by simp [State.getV, State.setV, State.nextDraw]⟩

/-! ### Index register and memory (2.4) -/

/-- V90 -/
theorem test_ld_i : after (at200 0xA300) (fun t => t.i == 0x300) := by decide

/-- V91, V92 -/
theorem test_add_i : after ((withI 0xF11E 0x0FFE).setV 1 3) (fun t => t.i == 0x1001 && t.getV 0xF == 0) ∧
    after ((withI 0xF11E 0xFFFF).setV 1 1) (fun t => t.i == 0) := by decide

/-- V93, V95 -/
theorem test_ld_f : after ((at200 0xF229).setV 2 0x0A) (fun t => t.i == 0x032) ∧
    after ((at200 0xF229).setV 2 0xFF) (fun t => t.i == 0x4FB) := by decide

/-- W7 -/
theorem test_ld_b : after ((withI 0xF033 0x300).setV 0 234) (fun t =>
    t.mem.read 0x300 == 2 && t.mem.read 0x301 == 3 && t.mem.read 0x302 == 4 && t.i == 0x300) := by decide

/-- V97, V98 -/
theorem test_ld_b_faults : faults ((withI 0xF033 0xFFE).setV 0 0x12) .memRange 0xF033 0x1000 ∧
    faults ((withI 0xF033 0x04E).setV 0 0x12) .fontWrite 0xF033 0x04E := by decide

/-- V99 -/
theorem test_ld_mem_v : after ((((withI 0xF255 0x300).setV 0 1).setV 1 2).setV 2 3) (fun t =>
    t.mem.read 0x300 == 1 && t.mem.read 0x301 == 2 && t.mem.read 0x302 == 3 && t.mem.read 0x303 == 0 &&
    t.i == 0x300) := by decide

/-- V101, V102 (at 0x200) -/
theorem test_ld_mem_v_faults : faults (withI 0xFF55 0xFF1) .memRange 0xFF55 0x1000 ∧
    faults (withI 0xF255 0x04E) .fontWrite 0xF255 0x04E := by decide

/-- V103 -/
theorem test_ld_v_mem : after (stored (stored (stored (withI 0xF265 0x300) 0x300 2) 0x301 3) 0x302 4) (fun t =>
    t.getV 0 == 2 && t.getV 1 == 3 && t.getV 2 == 4 && t.getV 3 == 0 && t.i == 0x300) := by decide

/-- V105 (at 0x200) -/
theorem test_ld_v_mem_fault : faults (withI 0xF265 0xFFE) .memRange 0xF265 0x1000 := by decide

/-! ### Framebuffer (2.5) -/

/-- A row of FB whose pixels `a` and `b` are set. -/
def pixels (a b : Fin 64) : Vector Bool 64 := ((Vector.replicate 64 false).set a.val true).set b.val true

/-- V111 -/
theorem test_cls : after { at200 0x00E0 with fb := Framebuffer.clear.set 5 (pixels 5 5) } (fun t =>
    decide (t.fb = Framebuffer.clear) && t.dirty) := by decide

/-- V116: row wrap, and the bit order of R172. -/
theorem test_drw : after (stored (stored ((withI 0xD012 0x300).setV 1 31) 0x300 0x80) 0x301 0x81) (fun t =>
    decide (t.fb = (Framebuffer.clear.set 31 (pixels 0 0)).set 0 (pixels 0 7)) &&
    t.getV 0xF == 0 && t.dirty) := by decide

/-- V114, V115: column wrap of a sprite and of its start, here with a collision at column 1. -/
theorem test_drw_collides : after
    { stored ((withI 0xD011 0x300).setV 0 252) 0x300 0x84 with fb := Framebuffer.clear.set 0 (pixels 1 9) }
    (fun t => decide (t.fb = Framebuffer.clear.set 0 (pixels 60 9)) && t.getV 0xF == 1) := by decide

/-- V117, V118 -/
theorem test_drw_no_rows_and_fault :
    after ((withI 0xD010 0xFFFF).setV 0xF 1) (fun t =>
      t.getV 0xF == 0 && t.dirty && decide (t.fb = Framebuffer.clear)) ∧
    faults ((withI 0xD013 0xFFE).setV 0xF 7) .memRange 0xD013 0x1000 := by decide

/-- Log 15: a second draw over a set pixel turns it on again and does not collide (R171, R174), although
the sprite has a set bit (R175). -/
theorem test_second_draw_need_not_collide : after
    { stored (withI 0xD011 0x300) 0x300 0x80 with fb := Framebuffer.clear.set 0 (pixels 0 0) } (fun t =>
      t.getV 0xF == 1 && decide (t.fb = Framebuffer.clear) &&
      after (t.setPc 0x200) (fun u =>
        u.getV 0xF == 0 && decide (u.fb = Framebuffer.clear.set 0 (pixels 0 0)))) := by decide

/-- The bytes of glyph 0 of the default font (V104), for a machine that has that font. -/
theorem test_default_font (h : Config.FontIsDefault) :
    State.reset.mem.read 0 = 0xF0 ∧ State.reset.mem.read 1 = 0x90 :=
  ⟨by simpa [State.reset, Memory.read, unlisted, Config.defaultFont] using h 0 (by decide),
   by simpa [State.reset, Memory.read, unlisted, Config.defaultFont] using h 1 (by decide)⟩

/-! ### Keypad, timers, host (2.6, 2.7) -/

/-- V130, V134 -/
theorem test_skp : after (((at200 0xE59E).setV 5 0x0A).setKey 0xA true) (fun t => t.pc == 0x204) ∧
    faults ((at200 0xE59E).setV 5 0x10) .keyRange 0xE59E 0x10 := by decide

/-- V132, V135 -/
theorem test_sknp : after ((at200 0xE5A1).setV 5 0x0A) (fun t => t.pc == 0x204) ∧
    faults ((at200 0xE5A1).setV 5 0xFF) .keyRange 0xE5A1 0xFF := by decide

/-- V136 -/
theorem test_ld_vx_dt : after ((at200 0xF307).setDT 0x3C) (fun t => t.getV 3 == 0x3C) := by decide

/-- V137, V140 -/
theorem test_ld_vx_k : after (at200 0xF30A) (fun t =>
    t.status.state == .waitingKey && t.status.waitX == 3 && t.pc == 0x202 &&
    (t.keyDown 7).getV 3 == 7 && (t.keyDown 7).getKey 7 && (t.keyDown 7).status == Status.reset) := by decide

/-- V141, V142: a key held already does not end the wait; its next KEY_DOWN does. -/
theorem test_ld_vx_k_held : after ((at200 0xF00A).setKey 3 true) (fun t =>
    after t (fun u => u.status.state == .waitingKey && (u.keyDown 3).getV 0 == 3)) := by decide

/-- V144 -/
theorem test_ld_dt_vx : after ((at200 0xF315).setV 3 0x3C) (fun t => t.dt == 0x3C && t.st == 0) := by decide

/-- V145 -/
theorem test_ld_st_vx : after ((at200 0xF318).setV 3 5) (fun t =>
    t.st == 5 && t.dt == 0 && t.soundActive) := by decide

/-- V147-V149 -/
theorem test_tick : (((at200 0).setDT 0x3C).tick.dt = 0x3B) ∧ ((at200 0).setST 1).tick.st = 0 ∧
    (at200 0).tick = at200 0 := by decide

/-- V163: QUIT during a wait. -/
theorem test_quit : after (at200 0xF30A) (fun t =>
    decide (t.quit.status = { state := .quit, waitX := 3, cause := .quit, faultPc := 0x202
                              faultOpcode := 0, faultAddr := 0 })) := by decide

/-- W1 -/
theorem test_load : (at200 0).load [0x12, 0x34, 0xAB] =
    { State.reset with mem := [(0x200, 0x12), (0x201, 0x34), (0x202, 0xAB)] } := by decide

/-- R215: the reporting step. -/
theorem test_report : reportStep (at200 0x00EE) = .fault .stackUnderflow := by rfl

/-- R215: a QUIT or a LOAD after a fault does not make the run one without a fault. -/
theorem test_report_then_quit :
    reportTransactions [.step 0, .quit] (at200 0x00EE) = .fault .stackUnderflow ∧
    reportTransactions [.step 0, .load []] (at200 0x00EE) = .fault .stackUnderflow :=
  ⟨by rfl, by rfl⟩

/-- V20 then QUIT is not a safe run, although it ends in QUIT. -/
theorem test_fault_then_quit_is_unsafe : ¬ runsSafely [.step 0, .quit] (at200 0x00EE) := by
  rintro ⟨_, t, h, hf, _⟩
  cases h
  exact hf rfl

/-! ## Witnesses: for each statement with hypotheses, a state and operands that meet them all -/

theorem step_of_after {s : State} {p : State → Bool} (h : after s p = true) :
    ∃ t, step s = .next t ∧ p t = true := by
  unfold after at h
  split at h
  · exact ⟨_, ‹_›, h⟩
  · cases h
  · cases h

theorem step_of_faults {s : State} {c : Cause} {op addr : Nat} (h : faults s c op addr = true) :
    ∃ t, step s = .next t ∧ t.status.state = .faulted ∧ t.status.cause = c := by
  obtain ⟨t, h1, h2⟩ := step_of_after h
  exact ⟨t, h1, by rw [of_decide_eq_true h2]; exact ⟨rfl, rfl⟩⟩

theorem witness_RecognizedWordIsItsInstructionsWord : decodeWord 0x847E = .ok (.shl 4 7) := by decide

/-- pc at the last address that can be fetched from. -/
theorem witness_StepRunsTheDecodedInstruction : ∃ (s : State) (op : Word) (i : Instr),
    s.status.state = .running ∧ s.pc.toNat < 0xFFF ∧
    op.toNat = (s.mem.read s.pc.toNat).toNat * 256 + (s.mem.read (s.pc.toNat + 1)).toNat ∧
    decodeWord op = .ok i :=
  ⟨stored ((at200 0).setPc 0xFFE) 0xFFE 0x60, 0x6000, .ldImm 0 0, by decide⟩

theorem witness_UnrecognizedWordOnlyAdvancesPc : ∃ (s : State) (op : Word),
    s.status.state = .running ∧ s.pc.toNat < 0xFFF ∧
    op.toNat = (s.mem.read s.pc.toNat).toNat * 256 + (s.mem.read (s.pc.toNat + 1)).toNat ∧
    decodeWord op = .error .unrecognized :=
  ⟨(at200 0).setPc 0xFFE, 0, by decide⟩

theorem witness_FetchBeyondMemoryHalts :
    (((at200 0).setPc 0x1000).status.state = .running ∧ 4096 ≤ ((at200 0).setPc 0x1000).pc.toNat) ∧
    (((at200 0).setPc 0xFFFF).status.state = .running ∧ 4096 ≤ ((at200 0).setPc 0xFFFF).pc.toNat) := by
  decide

theorem witness_FetchAtLastByteFaults :
    ((at200 0).setPc 0xFFF).status.state = .running ∧ ((at200 0).setPc 0xFFF).pc = 0xFFF := by decide

theorem witness_HeldAndStoppedMachinesIgnoreStep : (at200 0).quit.status.state ≠ .running ∧
    ∃ s t : State, s.status.state = .waitingKey ∧ transact (.keyDown 3) s = .next t ∧
      t.status.state ≠ .waitingKey :=
  ⟨by decide, { at200 0 with status := { Status.reset with state := .waitingKey } }, _, rfl, rfl, by decide⟩

theorem witness_FetchWordRunsNext : State.reset.mem.wf ∧
    decodeTableWord 16 0xF033 = some (.ldB 0) ∧ State.reset.status.state = .running ∧
    State.reset.pc.toNat < 0xFFF := by decide

theorem witness_CallPushesReturnAddress : ({ at200 0 with sp := 15 } : State).sp.val < 16 ∧
    ({ at200 0 with sp := 16 } : State).sp.val = 16 := by decide

theorem witness_ReturnPopsIntoPc : 0 < ({ at200 0 with sp := 1 } : State).sp.val ∧
    (at200 0).sp.val = 0 := by decide

/-- W5 -/
theorem witness_CallThenReturnComesBack : ∃ (s : State) (nnn : Imm12), s.status.state = .running ∧
    s.pc.toNat < 0xFFF ∧
    decode [s.mem.read s.pc.toNat, s.mem.read (s.pc.toNat + 1)] = .ok (.call nnn) ∧
    nnn.toNat < 0xFFF ∧ s.mem.read nnn.toNat = 0x00 ∧ s.mem.read (nnn.toNat + 1) = 0xEE ∧
    s.sp.val < 16 :=
  ⟨stored (at200 0x2300) 0x301 0xEE, 0x300, by decide⟩

theorem witness_RandomByteReachesOnlyRnd : ∀ x nn,
    decode [(at200 0).mem.read (at200 0).pc.toNat, (at200 0).mem.read ((at200 0).pc.toNat + 1)] ≠
      .ok (.rnd x nn) := by
  intro x nn h
  rw [show decode [(at200 0).mem.read (at200 0).pc.toNat, (at200 0).mem.read ((at200 0).pc.toNat + 1)] =
    .error .unrecognized by decide] at h
  cases h

/-- Each clause at the ends of its range. -/
theorem witness_BcdStoresThreeDigits : (withI 0 0x50).mem.wf ∧ (withI 0 0xFFE).mem.wf ∧
    (0x50 ≤ (withI 0 0x50).i.toNat ∧ (withI 0 0x50).i.toNat + 2 < 4096) ∧
    (0x50 ≤ (withI 0 0xFFD).i.toNat ∧ (withI 0 0xFFD).i.toNat + 2 < 4096) ∧
    (withI 0 0x4F).i.toNat < 0x50 ∧ 4096 ≤ (withI 0 0xFFE).i.toNat + 2 := by decide

/-- Each clause at the ends of its range. -/
theorem witness_StoreWritesRegisterRange : (withI 0 0x50).mem.wf ∧ (withI 0 0xFF1).mem.wf ∧
    (0x50 ≤ (withI 0 0x50).i.toNat ∧ (withI 0 0x50).i.toNat + (0 : Reg).val < 4096) ∧
    (0x50 ≤ (withI 0 0xFF0).i.toNat ∧ (withI 0 0xFF0).i.toNat + (15 : Reg).val < 4096) ∧
    (withI 0 0x4F).i.toNat < 0x50 ∧ 4096 ≤ (withI 0 0xFF1).i.toNat + (15 : Reg).val := by decide

/-- Each clause at the ends of its range. -/
theorem witness_LoadReadsRegisterRange : (withI 0 0).i.toNat + (15 : Reg).val < 4096 ∧
    (withI 0 0xFFF).i.toNat + (0 : Reg).val < 4096 ∧
    4096 ≤ (withI 0 0x1000).i.toNat + (0 : Reg).val := by decide

theorem witness_StoredWordIsFetched : ∃ (s : State) (x : Reg) (i : Instr), s.mem.wf ∧
    s.status.state = .running ∧ 0x50 ≤ s.i.toNat ∧ 1 ≤ x.val ∧ s.i.toNat + x.val < 4096 ∧
    decode [s.getV 0, s.getV 1] = .ok i :=
  ⟨((withI 0 0xFFE).setV 0 0x12).setV 1 0x34, 1, .jp 0x234, by decide⟩

/-- No rows at the highest I, 15 rows at the end of MEM, and one row past it. -/
theorem witness_DrawXorsSpriteWithCollision :
    ((0 : Imm4) = 0 ∨ (withI 0 0xFFFF).i.toNat + (0 : Imm4).toNat ≤ 4096) ∧
    ((15 : Imm4) = 0 ∨ (withI 0 0xFF1).i.toNat + (15 : Imm4).toNat ≤ 4096) ∧
    ((1 : Imm4) ≠ 0 ∧ 4096 < (withI 0 0x1000).i.toNat + (1 : Imm4).toNat) := by decide

theorem witness_DrawTwiceRestoresScreen : ∃ (s : State) (x y : Reg) (n : Imm4),
    (n = 0 ∨ s.i.toNat + n.toNat ≤ 4096) ∧ x ≠ 0xF ∧ y ≠ 0xF ∧
    (∀ py px, s.fb.pixel py px = false) ∧ ∃ r < n.toNat, s.mem.read (s.i.toNat + r) ≠ 0 :=
  ⟨stored (withI 0 0x300) 0x300 0x80, 0, 1, 1, by decide, by decide, by decide,
    fun py px => pixel_clear py px, 0, by decide, by decide⟩

theorem witness_KeySkipsFollowKeypad : (((at200 0).setV 5 15).getV 5).toNat < 16 ∧
    16 ≤ (((at200 0).setV 5 16).getV 5).toNat := by decide

/-- Each cause of the table. -/
theorem witness_FaultsArePrecise : ∀ c ∈ [Cause.stackOverflow, .stackUnderflow, .memRange, .fontWrite,
    .keyRange], ∃ s t : State, s.status.state = .running ∧ step s = .next t ∧
      t.status.state = .faulted ∧ t.status.cause = c := by
  intro c hc
  simp only [List.mem_cons, List.not_mem_nil, or_false] at hc
  rcases hc with rfl | rfl | rfl | rfl | rfl
  · exact ⟨_, (step_of_faults test_call_overflow).imp fun _ h => ⟨by decide, h⟩⟩
  · exact ⟨_, (step_of_faults test_ret_underflow).imp fun _ h => ⟨by decide, h⟩⟩
  · exact ⟨_, (step_of_faults test_ld_v_mem_fault).imp fun _ h => ⟨by decide, h⟩⟩
  · exact ⟨_, (step_of_faults test_ld_b_faults.2).imp fun _ h => ⟨by decide, h⟩⟩
  · exact ⟨_, (step_of_faults test_skp.2).imp fun _ h => ⟨by decide, h⟩⟩

/-- A STEP that faults and one that does not. -/
theorem witness_ReportStepReportsFaults :
    (∃ s t : State, s.status.state = .running ∧ step s = .next t ∧ t.status.state = .faulted) ∧
    ∃ s t : State, s.status.state = .running ∧ step s = .next t ∧ t.status.state ≠ .faulted := by
  refine ⟨⟨_, (step_of_faults test_ret_underflow).imp fun _ h => ⟨by decide, h.1, h.2.1⟩⟩,
    ⟨at200 0, _, by decide, rfl, by decide⟩⟩

theorem witness_OnlyLoadLeavesStoppedStates : ∃ (ts : List Transaction) (s : State), s.stopped ∧
    ∀ image, Transaction.load image ∉ ts :=
  ⟨[.step 0, .tick, .keyDown 3, .keyUp 3, .presentAck, .quit], (at200 0).quit, by decide, by simp⟩

theorem witness_KeyDownMarksAndCompletes :
    (∃ s : State, s.status.state = .waitingKey) ∧ (at200 0).status.state ≠ .waitingKey :=
  ⟨⟨_, (rfl : ({ at200 0 with status := { Status.reset with state := .waitingKey } } :
    State).status.state = _)⟩, by decide⟩

theorem witness_LoadLeavesTheResetTable : (List.replicate 3584 (0 : Byte)).length ≤ 3584 := by
  rw [List.length_replicate]

theorem witness_LoadRejectsTooLargeImage : 3584 < (List.replicate 3585 (0 : Byte)).length := by
  rw [List.length_replicate]; decide

/-- Each of the three. -/
theorem witness_OnlyThreeInstructionsWriteI :
    ∀ i ∈ [Instr.ldI 0x300, .addI 1, .ldF 1], ∃ s t : State, exec i s = .next t ∧ t.i ≠ s.i := by
  intro i hi
  simp only [List.mem_cons, List.not_mem_nil, or_false] at hi
  rcases hi with rfl | rfl | rfl <;> exact ⟨withV12 0 1 0, _, rfl, by decide⟩

theorem witness_OnlyCallWritesStack :
    (∃ s t : State, exec (.call 0x300) s = .next t ∧ t.stack ≠ s.stack ∧ t.sp ≠ s.sp) ∧
    ∃ s t : State, exec .ret s = .next t ∧ t.sp ≠ s.sp :=
  ⟨⟨at200 0, _, rfl, by decide, by decide⟩, ⟨{ at200 0 with sp := 1 }, _, rfl, by decide⟩⟩

/-- A flag-setting instruction and one that names VF. -/
theorem witness_OnlyFlagSettersAndNamedWritesChangeVF :
    (∃ s t : State, exec (.addReg 1 2) s = .next t ∧ t.getV 0xF ≠ s.getV 0xF) ∧
    ∃ s t : State, exec (.ldImm 0xF 9) s = .next t ∧ t.getV 0xF ≠ s.getV 0xF :=
  ⟨⟨withV12 0 0xFF 1, _, rfl, by decide⟩, ⟨at200 0, _, rfl, by decide⟩⟩

theorem witness_OnlyTwoInstructionsWriteMem : ∀ i ∈ [Instr.ldB 1, .ldMemV 1], ∃ s t : State, s.mem.wf ∧
    exec i s = .next t ∧ ∃ a, t.mem.read a ≠ s.mem.read a := by
  intro i hi
  simp only [List.mem_cons, List.not_mem_nil, or_false] at hi
  rcases hi with rfl | rfl
  · exact ⟨(withI 0 0x300).setV 1 7, _, by decide, rfl, 0x302, by decide⟩
  · exact ⟨(withI 0 0x300).setV 1 7, _, by decide, rfl, 0x301, by decide⟩

theorem witness_DeviceStateWriters :
    (∃ s t : State, exec (.ldDTVx 1) s = .next t ∧ t.dt ≠ s.dt) ∧
    (∃ s t : State, exec (.ldSTVx 1) s = .next t ∧ t.st ≠ s.st) ∧
    (∃ s t : State, exec .cls s = .next t ∧ (t.fb ≠ s.fb ∨ t.dirty ≠ s.dirty)) ∧
    ∃ s t : State, step s = .next t ∧ s.dirty = true :=
  ⟨⟨withV12 0 1 0, _, rfl, by decide⟩, ⟨withV12 0 1 0, _, rfl, by decide⟩,
    ⟨at200 0, _, rfl, .inr (by decide)⟩, ⟨(at200 0).setDirty true, _, rfl, rfl⟩⟩

theorem witness_SoundTimerIsNeverRead : (∀ x, Instr.cls ≠ .ldSTVx x) ∧
    ∃ t, exec .cls (at200 0) = .next t := ⟨fun _ => nofun, _, rfl⟩

theorem reset_font : State.reset.fontIntact := fun _ h => if_pos h

theorem witness_StepKeepsFont : ∃ s t : State, s.mem.wf ∧ s.fontIntact ∧ step s = .next t :=
  ⟨State.reset, _, by decide, reset_font, rfl⟩

theorem reset_pc : State.reset.pcBounded :=
  ⟨by decide, fun j h => by simp [State.reset]⟩

theorem witness_StepKeepsPcInBounds : ∃ s t : State, s.pcBounded ∧ step s = .next t :=
  ⟨State.reset, _, reset_pc, rfl⟩

/-- A state other than reset that meets the invariant: one that awaits a key. -/
theorem waiting_inv : ({ State.reset with
    status := { Status.reset with state := .waitingKey, waitX := 3 } } : State).Inv :=
  ⟨by decide, fun _ => reset_font, fun _ => reset_pc,
    ⟨fun _ => ⟨rfl, rfl, rfl, rfl⟩, nofun⟩⟩

/-- A running state other than reset that meets the invariant. -/
theorem running_inv : (State.reset.setI 0xFFFF).Inv :=
  ⟨by decide, fun _ => reset_font, fun _ => reset_pc, ⟨fun _ => ⟨rfl, rfl, rfl, rfl⟩, fun _ => rfl⟩⟩

theorem witness_StepKeepsInvariant : ∃ s t : State, s.Inv ∧ step s = .next t :=
  ⟨State.reset.setI 0xFFFF, _, running_inv, rfl⟩

theorem witness_TransactionsKeepInvariant : ∃ (ts : List Transaction) (s t : State), s.Inv ∧
    runTransactions ts s = .next t :=
  ⟨[.keyDown 7, .step 0, .tick, .keyUp 7, .presentAck, .quit], _, _, waiting_inv, rfl⟩

/-- A run that is safe and one that is not. -/
theorem witness_SafeRunsAreTheRunsThatReportNoFault : ¬ (at200 0).faulted ∧ ¬ (at200 0x00EE).faulted ∧
    runsSafely [.step 0, .tick, .quit] (at200 0) ∧ ¬ runsSafely [.step 0, .quit] (at200 0x00EE) :=
  ⟨by decide, by decide, ⟨by decide, _, rfl, by decide, _, rfl, by decide, _, rfl, show ¬ State.faulted _ by decide⟩,
    test_fault_then_quit_is_unsafe⟩

end Sys2Proof.Tests
end

/-! ## What an instruction can do to each item of the state (10_state.md R22, R24-R34)

One inversion of the execute phases into the ten shapes their effects have, and one of a STEP on top
of it. The rules of the state family are read off these two. -/

namespace Sys2Proof

/-- The V registers an instruction may write: its destination, and VF where it sets the flag
(10_state.md R22, R34). -/
def Instr.writesV (r : Reg) : Instr → Prop
  | .ldImm x _ | .addImm x _ | .rnd x _ | .ldReg x _ | .orReg x _ | .andReg x _ | .xorReg x _
  | .ldVxDT x => r = x
  | .addReg x _ | .subReg x _ | .shr x _ | .subnReg x _ | .shl x _ => r = x ∨ r = Machine.VF
  | .drw _ _ _ => r = Machine.VF
  | .ldVMem x => r.val ≤ x.val
  | _ => False

end Sys2Proof

namespace Sys2Proof.Machine

/-- What the execute phase of an instruction may leave of the state it sees, grouped by the items it
writes. `phase_effect` ties it to `phase`. -/
inductive Effect : Instr → State → State → Prop
  /-- The jumps and skips, within the bounds of 10_state.md R24. -/
  | goto {i : Instr} {s : State} (w : Word)
      (hw : w.toNat ≤ 0x10FE ∨ w = s.pc ∨ w = s.pc + 2) : Effect i s (s.setPc w)
  | call {s : State} (nnn : Imm12) (h : s.sp.val < 16) : Effect (.call nnn) s { s with
      stack := s.stack.set s.sp.val s.pc, sp := ⟨s.sp.val + 1, by omega⟩, pc := immAddr nnn }
  | ret {s : State} (h : 0 < s.sp.val) : Effect .ret s { s with
      sp := ⟨s.sp.val - 1, by omega⟩, pc := s.stack[s.sp.val - 1]'(by omega) }
  /-- Loads, arithmetic and logic, Cxnn, Fx07 and Fx65. -/
  | regs {i : Instr} {s : State} (v : Vector Byte 16) (d : Nat)
      (hv : ∀ r : Reg, v[r.val] ≠ s.getV r → i.writesV r) : Effect i s { s with v := v, draws := d }
  | index {i : Instr} {s : State} (w : Word)
      (hi : (∃ nnn, i = .ldI nnn) ∨ (∃ x, i = .addI x) ∨ ∃ x, i = .ldF x) : Effect i s (s.setI w)
  | screen {i : Instr} {s : State} (v : Vector Byte 16) (fb : Framebuffer)
      (hi : i = .cls ∨ ∃ x y n, i = .drw x y n)
      (hv : ∀ r : Reg, v[r.val] ≠ s.getV r → i.writesV r) :
      Effect i s { s with v := v, fb := fb, dirty := true }
  | wait {s : State} (x : Reg) :
      Effect (.ldVxK x) s (s.setStatus { s.status with state := .waitingKey, waitX := x })
  | delay {s : State} (x : Reg) (b : Byte) : Effect (.ldDTVx x) s (s.setDT b)
  | sound {s : State} (x : Reg) (b : Byte) : Effect (.ldSTVx x) s (s.setST b)
  | store {i : Instr} {s : State} (bs : List Byte) (hlo : 80 ≤ s.i.toNat)
      (hhi : s.i.toNat + bs.length ≤ 4096)
      (hi : (∃ x, i = .ldB x ∧ bs.length = 3) ∨ ∃ x : Reg, i = .ldMemV x ∧ bs.length = x.val + 1) :
      Effect i s (s.setMem (placeBytes s.mem s.i.toNat bs))

namespace Effect

variable {i : Instr} {s t : State}

/-! ### The shapes of register writes, skips and stores -/

theorem of_setV {x : Reg} (hx : i.writesV x) (b : Byte) (d : Nat) :
    Effect i s { s.setV x b with draws := d } := by
  refine .regs (s.setV x b).v d fun r hr => ?_
  by_cases h : r = x
  · exact h ▸ hx
  · exact absurd (s.getV_setV_of_ne b h) hr

theorem of_setVFlag {x : Reg} (hx : i.writesV x) (hf : i.writesV VF) (b : Byte) (f : Bool) :
    Effect i s (s.setVFlag x b f) := by
  refine .regs (s.setVFlag x b f).v s.draws fun r hr => ?_
  by_cases h : r = VF
  · exact h ▸ hf
  by_cases h' : r = x
  · exact h' ▸ hx
  · exact absurd ((s.getV_setVFlag x r b f).trans (by simp [h, h'])) hr

theorem of_loadRegs {x : Reg} {bs : List Byte} (hbs : bs.length = x.val + 1) :
    Effect (.ldVMem x) s (s.loadRegs bs) := by
  refine .regs (s.loadRegs bs).v s.draws fun r hr => ?_
  by_contra h
  have hlen : bs.length ≤ r.val := by rw [hbs]; exact Nat.lt_of_not_le h
  exact hr ((s.getV_loadRegs bs r).trans (by simp [List.getElem?_eq_none hlen]))

theorem of_skipIf (c : Bool) : Effect i s (s.skipIf c) := by
  cases c
  · exact .goto s.pc (.inr (.inl rfl))
  · exact .goto (s.pc + 2) (.inr (.inr rfl))

theorem of_writeAtI {bs : List Byte} (hn : bs ≠ []) (h : s.writeAtI bs = .ok t)
    (hi : (∃ x, i = .ldB x ∧ bs.length = 3) ∨ ∃ x : Reg, i = .ldMemV x ∧ bs.length = x.val + 1) :
    Effect i s t := by
  rcases writeAtI_cases s hn with ⟨hlo, hhi, e⟩ | ⟨-, e⟩ | ⟨-, -, e⟩ <;> rw [e] at h <;> cases h
  exact .store bs hlo hhi hi

end Effect

theorem add_two_le {w : Word} {n : Nat} (h : w.toNat + 2 ≤ n) : (w + 2).toNat ≤ n :=
  (Nat.mod_le _ _).trans h

theorem jpV0_target_le (b : Byte) (nnn : Imm12) : (zext16 b + immAddr nnn).toNat ≤ 0x10FE := by
  have hb := b.isLt
  have hn := nnn.isLt
  rw [BitVec.toNat_add, zext16_toNat, immAddr_toNat]
  omega

theorem immAddr_le (nnn : Imm12) : (immAddr nnn).toNat ≤ 0x10FE := by
  have hn := nnn.isLt
  rw [immAddr_toNat]
  omega

/-- A phase that completes leaves one of the ten effects. -/
theorem phase_effect {i : Instr} {s t : State} (h : phase i s = .ok t) : Effect i s t := by
  cases i
  case jp nnn => cases h; exact .goto _ (.inl (immAddr_le nnn))
  case jpV0 nnn => cases h; exact .goto _ (.inl (jpV0_target_le _ nnn))
  case call nnn =>
    rcases push_cases s s.pc with ⟨hsp, -⟩ | ⟨hsp, -⟩
    · rw [phase_call_ok nnn hsp] at h; cases h; exact .call nnn hsp
    · rw [phase_call_error nnn hsp] at h; cases h
  case ret =>
    rcases pop_cases s with ⟨hsp, -⟩ | ⟨hsp, -⟩
    · rw [phase_ret_ok hsp] at h; cases h; exact .ret hsp
    · rw [phase_ret_error hsp] at h; cases h
  case seImm | sneImm | seReg | sneReg => cases h; exact .of_skipIf _
  case skp | sknp => simp only [phase] at h; split at h <;> cases h; exact .of_skipIf _
  case ldImm | addImm | ldReg | orReg | andReg | xorReg | ldVxDT =>
    cases h; exact .of_setV (by rfl) _ s.draws
  case addReg | subReg | shr | subnReg | shl =>
    cases h; exact .of_setVFlag (by exact .inl rfl) (by exact .inr rfl) _ _
  case rnd x nn => cases h; exact .of_setV (by rfl) _ (s.draws + 1)
  case ldVMem x =>
    rcases readAtI_cases s (x.val + 1) with ⟨-, e⟩ | ⟨-, -, e⟩ <;>
      simp only [phase, e] at h <;> cases h
    exact .of_loadRegs (by simp)
  case cls => cases h; exact .screen s.v _ (.inl rfl) fun r hr => absurd rfl hr
  case drw x y n =>
    simp only [phase] at h
    split at h <;> cases h
    refine .screen (s.setV VF _).v _ (.inr ⟨x, y, n, rfl⟩) fun r hr => ?_
    by_contra hne
    exact hr (s.getV_setV_of_ne _ hne)
  case ldI nnn => cases h; exact .index _ (.inl ⟨nnn, rfl⟩)
  case addI x => cases h; exact .index _ (.inr (.inl ⟨x, rfl⟩))
  case ldF x => cases h; exact .index _ (.inr (.inr ⟨x, rfl⟩))
  case ldVxK x => cases h; exact .wait x
  case ldDTVx x => cases h; exact .delay x _
  case ldSTVx x => cases h; exact .sound x _
  case ldB x => exact .of_writeAtI (List.cons_ne_nil _ _) h (.inl ⟨x, rfl, rfl⟩)
  case ldMemV x => exact .of_writeAtI (regsUpTo_ne_nil s x) h (.inr ⟨x, rfl, regsUpTo_length s x⟩)

/-- Executing an instruction leaves an effect on the state with pc advanced, or a taken fault. -/
theorem exec_effect {i : Instr} {s t : State} (h : exec i s = .next t) :
    Effect i s.advance t ∨ ∃ f, t = s.takeFault (encodeWord i) f :=
  (exec_cases h).imp phase_effect fun ⟨f, _, ht⟩ => ⟨f, ht⟩

/-- The same for STEP(r), whose byte only Cxnn sees (60_exceptions.md R241). -/
theorem execWith_effect {r : Byte} {i : Instr} {s t : State} (h : execWith r i s = .next t) :
    Effect i s.advance t ∨ ∃ f, t = s.takeFault (encodeWord i) f := by
  by_cases hi : ∃ x nn, i = .rnd x nn
  · obtain ⟨x, nn, rfl⟩ := hi
    cases h
    exact .inl (.of_setV (by rfl) _ _)
  · rw [execWith_eq_exec fun x nn e => hi ⟨x, nn, e⟩] at h
    exact exec_effect h

/-! ## What a STEP can do -/

/-- `step` is the STEP(r) of the free byte (log 2). -/
theorem step_eq_stepWith (s : State) : step s = stepWith (Config.randomByte s.draws) s := by
  simp only [step, stepWith, fetchDecodeExecute, exec_eq_execWith]

/-- All a STEP(r) can do: nothing; a stop; or, from a running machine that can fetch, the effect of
an instruction or of an UNRECOGNIZED word. -/
theorem stepWith_cases {r : Byte} {s t : State} (h : stepWith r s = .next t) :
    t = s ∨
    (∃ a c o d, t = s.stop a c o d ∧ ¬ t.live) ∨
    (s.status.state = .running ∧ s.pc.toNat < 0xFFF ∧
      ((∃ i, Effect i s.advance t) ∨ t = s.advance)) := by
  have fault : ∀ o f, t = s.takeFault o f → ∃ a c o d, t = s.stop a c o d ∧ ¬ t.live := by
    rintro o f rfl
    exact ⟨_, _, _, _, rfl, by simp [State.live]⟩
  rcases fetchDecodeExecute_cases (execWith r) s with
    ⟨-, e⟩ | ⟨hrun, ⟨-, e⟩ | ⟨-, e⟩ | ⟨hpc, ⟨i, -, e⟩ | ⟨-, e⟩⟩⟩ <;> rw [stepWith, e] at h
  · cases h; exact .inl rfl
  · cases h; exact .inr (.inl ⟨_, _, _, _, rfl, by simp [State.live]⟩)
  · cases h; exact .inr (.inl (fault _ _ rfl))
  · rcases execWith_effect h with he | ⟨f, ht⟩
    · exact .inr (.inr ⟨hrun, hpc, .inl ⟨i, he⟩⟩)
    · exact .inr (.inl (fault _ f ht))
  · cases h; exact .inr (.inr ⟨hrun, hpc, .inr rfl⟩)

end Sys2Proof.Machine

/-! ## The invariant (10_state.md R24, R33; 20_memory.md R52) -/

namespace Sys2Proof.Machine

namespace Effect

variable {i : Instr} {s t : State}

/-- What is pushed is a fetched instruction's pc + 2, so no entry of STACK exceeds 0x1000
(10_state.md R24). -/
theorem pcBounded (h : Effect i s t) (hb : s.pcBounded) (hpc : s.pc.toNat ≤ 0x1000) :
    t.pcBounded := by
  obtain ⟨hle, hst⟩ := hb
  cases h with
  | goto w hw =>
    refine ⟨?_, hst⟩
    rcases hw with hw | rfl | rfl
    · exact hw
    · exact hle
    · exact add_two_le (by omega)
  | call nnn =>
    refine ⟨immAddr_le nnn, fun j hj => ?_⟩
    rw [Vector.getElem_set]
    split
    · exact hpc
    · exact hst j hj
  | ret hsp => exact ⟨(hst (s.sp.val - 1) (by omega)).trans (by decide), hst⟩
  | _ => exact ⟨hle, hst⟩

theorem mem_wf (h : Effect i s t) (hm : s.mem.wf) : t.mem.wf := by
  cases h with
  | store bs _ hhi => exact placeBytes_wf hm hhi
  | _ => exact hm

/-- No instruction stores below 0x050 (20_memory.md R52). -/
theorem fontIntact (h : Effect i s t) (hm : s.mem.wf) (hf : s.fontIntact) : t.fontIntact := by
  cases h with
  | store bs hlo _ =>
    intro a ha
    have hbelow : ¬ (s.i.toNat ≤ a ∧ a < s.i.toNat + bs.length) := by
      simp only [Config.fontSize] at ha
      omega
    rw [State.setMem_mem, placeBytes_read hm.1, if_neg hbelow]
    exact hf a ha
  | _ => exact hf

theorem statusConsistent (h : Effect i s t) (hrun : s.status.state = .running)
    (hs : s.statusConsistent) : t.statusConsistent := by
  cases h with
  | wait x => exact ⟨fun _ => hs.1 (.inl hrun), nofun⟩
  | _ => exact hs

theorem inv (h : Effect i s t) (hs : s.Inv) (hrun : s.status.state = .running)
    (hpc : s.pc.toNat ≤ 0x1000) : t.Inv where
  memWf := h.mem_wf hs.memWf
  font _ := h.fontIntact hs.memWf (hs.font (.inl hrun))
  pcBound _ := h.pcBounded (hs.pcBound (.inl hrun)) hpc
  statusOk := h.statusConsistent hrun hs.statusOk

end Effect

/-! ### The advance and the stops -/

theorem advance_pc_le {s : State} (h : s.pc.toNat < 0xFFF) : s.advance.pc.toNat ≤ 0x1000 :=
  add_two_le (by omega)

theorem advance_pcBounded {s : State} (hs : s.pcBounded) (h : s.pc.toNat < 0xFFF) :
    s.advance.pcBounded :=
  ⟨by have := advance_pc_le h; omega, hs.2⟩

theorem advance_inv {s : State} (hs : s.Inv) (h : s.pc.toNat < 0xFFF) : s.advance.Inv :=
  ⟨hs.memWf, hs.font, fun hl => advance_pcBounded (hs.pcBound hl) h, hs.statusOk⟩

/-- Once the run has ended the invariant asks only for the canonical form of MEM. -/
theorem inv_of_not_live {t : State} (hm : t.mem.wf) (h : ¬ t.live) : t.Inv :=
  ⟨hm, (absurd · h), (absurd · h), (absurd · h), fun hr => absurd (.inl hr) h⟩

/-! ### A STEP -/

theorem stepWith_pcBounded {r : Byte} {s t : State} (hs : s.pcBounded)
    (h : stepWith r s = .next t) : t.pcBounded := by
  rcases stepWith_cases h with rfl | ⟨_, _, _, _, rfl, -⟩ | ⟨-, hpc, ⟨i, he⟩ | rfl⟩
  · exact hs
  · exact hs
  · exact he.pcBounded (advance_pcBounded hs hpc) (advance_pc_le hpc)
  · exact advance_pcBounded hs hpc

theorem stepWith_inv {r : Byte} {s t : State} (hs : s.Inv) (h : stepWith r s = .next t) :
    t.Inv := by
  rcases stepWith_cases h with rfl | ⟨_, _, _, _, rfl, hl⟩ | ⟨hrun, hpc, ⟨i, he⟩ | rfl⟩
  · exact hs
  · exact inv_of_not_live hs.memWf hl
  · exact he.inv (advance_inv hs hpc) hrun (advance_pc_le hpc)
  · exact advance_inv hs hpc

/-- Settles O55: the inversion of a STEP, each effect keeping each part of the invariant. -/
theorem stepKeepsInvariant : Obligations.StepKeepsInvariant := by
  intro s t hs h
  rw [step_eq_stepWith] at h
  exact stepWith_inv hs h

/-- Settles O53: a word that can be fetched lies below 0xFFF, so the advance, a skip and a pushed
address stay in bounds, and a jump reaches at most 0xFF + 0xFFF. -/
theorem stepKeepsPcInBounds : Obligations.StepKeepsPcInBounds := by
  intro s t hs h
  rw [step_eq_stepWith] at h
  exact stepWith_pcBounded hs h

/-! ### LOAD (10_state.md R37, 70_reset_and_hazards.md R250-R254) -/

theorem loaded_read (image : List Byte) (d a : Nat) :
    (State.loaded image d).mem.read a =
      if 0x200 ≤ a ∧ a < 0x200 + image.length then image.getD (a - 0x200) 0 else unlisted a := by
  rw [State.loaded, placeBytes_read List.Pairwise.nil, Memory.read_nil]

theorem unlisted_font {a : Nat} (h : a < 0x50) : unlisted a = Config.font a := if_pos h

theorem unlisted_zero {a : Nat} (h : 0x50 ≤ a) : unlisted a = 0 := if_neg (Nat.not_lt.mpr h)

/-- The table of 10_state.md R37. -/
theorem loaded_isAfterLoad (image : List Byte) (d : Nat) :
    (State.loaded image d).isAfterLoad image where
  font a ha := by rw [loaded_read, if_neg (by omega), unlisted_font ha]
  gap a h h' := by rw [loaded_read, if_neg (by omega), unlisted_zero h]
  program k h := by
    rw [loaded_read, if_pos (by omega), Nat.add_sub_cancel_left, List.getD_eq_getElem _ _ h]
  rest a h _ := by rw [loaded_read, if_neg (by omega), unlisted_zero (by omega)]
  v r := by simp [State.getV, State.loaded, State.reset]
  i := rfl
  pc := rfl
  stack j h := by simp [State.loaded, State.reset]
  sp := rfl
  timers := ⟨rfl, rfl⟩
  fb := pixel_clear
  dirty := rfl
  key k := by simp [State.getKey, State.loaded, State.reset]
  status := ⟨rfl, rfl, rfl, rfl, rfl, rfl⟩

/-- The state after LOAD of the empty image (log 3). -/
theorem reset_eq_loaded : State.reset = State.loaded [] 0 := rfl

theorem load_of_fits {image : List Byte} (h : image.length ≤ 3584) (s : State) :
    s.load image = State.loaded image s.draws :=
  if_pos (decide_eq_true h)

theorem load_of_too_large {image : List Byte} (h : 3584 < image.length) (s : State) :
    s.load image = State.loadFailed (Config.unspecified s.draws) (s.draws + 1) :=
  if_neg (by simpa [imageWellFormed] using h)

theorem loaded_inv {image : List Byte} (h : image.length ≤ 3584) (d : Nat) :
    (State.loaded image d).Inv where
  memWf := placeBytes_wf Memory.wf_nil (by simp only [Config.progBase]; omega)
  font _ := (loaded_isAfterLoad image d).font
  pcBound _ := ⟨by simp [(loaded_isAfterLoad image d).pc],
    fun j hj => by simp [(loaded_isAfterLoad image d).stack j hj]⟩
  statusOk := ⟨fun _ => ⟨rfl, rfl, rfl, rfl⟩, fun _ => rfl⟩

/-- A LOAD meets the invariant whatever the state before, the rejected one included. -/
theorem load_inv (image : List Byte) (s : State) : (s.load image).Inv := by
  rcases Nat.lt_or_ge 3584 image.length with h | h
  · rw [load_of_too_large h]
    exact inv_of_not_live (normal_wf _) (by simp [State.live, State.loadFailed])
  · rw [load_of_fits h]
    exact loaded_inv h _

/-- Settles O43: the placed image reads back and every other address as at reset. -/
theorem loadLeavesTheResetTable : Obligations.LoadLeavesTheResetTable := by
  intro image s h
  exact ⟨_, rfl, load_of_fits h s ▸ loaded_isAfterLoad image s.draws⟩

/-- Settles O44: reset is a LOAD of no bytes, which leaves the table. -/
theorem resetIsTheEmptyLoad : Obligations.ResetIsTheEmptyLoad := by
  rw [Obligations.ResetIsTheEmptyLoad, reset_eq_loaded]
  exact loaded_isAfterLoad [] 0

/-- Settles O54: a LOAD that fits meets the invariant, and reset is one. -/
theorem resetMeetsInvariant : Obligations.ResetMeetsInvariant := by
  rw [Obligations.ResetMeetsInvariant, reset_eq_loaded]
  exact loaded_inv (Nat.zero_le _) 0

/-! ### The other transactions (60_exceptions.md R233-R240) -/

/-- A KEY_DOWN that ends a wait clears wait_x (60_exceptions.md R233). -/
theorem keyDown_inv {s : State} (hs : s.Inv) (k : Key) : (s.keyDown k).Inv := by
  unfold State.keyDown
  cases hst : s.status.state <;> simp only [State.setKey_status, hst]
  case waitingKey =>
    have hl : s.live := .inr hst
    exact ⟨hs.memWf, fun _ => hs.font hl, fun _ => hs.pcBound hl,
      fun _ => hs.statusOk.1 hl, fun _ => rfl⟩
  all_goals exact ⟨hs.memWf, hs.font, hs.pcBound, hs.statusOk⟩

theorem transact_inv {a : Transaction} {s t : State} (hs : s.Inv) (h : transact a s = .next t) :
    t.Inv := by
  cases a with
  | load image => cases h; exact load_inv image s
  | step r => exact stepWith_inv hs h
  | keyDown k => cases h; exact keyDown_inv hs k
  | quit => cases h; exact inv_of_not_live hs.memWf (by simp [State.live, State.quit])
  | tick | keyUp | presentAck => cases h; exact ⟨hs.memWf, hs.font, hs.pcBound, hs.statusOk⟩

/-- Settles O56, by induction on the list of transactions. -/
theorem transactionsKeepInvariant : Obligations.TransactionsKeepInvariant := by
  intro ts
  induction ts with
  | nil => intro s t hs h; cases h; exact hs
  | cons a ts ih =>
    intro s t hs h
    rw [runTransactions] at h
    cases ha : transact a s with
    | next u => rw [ha] at h; exact ih u t (transact_inv hs ha) h
    | fault f => rw [ha] at h; cases h
    | refused f => rw [ha] at h; cases h

/-! ## Which instructions write which item (10_state.md R22, R25-R34) -/

namespace Effect

variable {i : Instr} {s t : State}

theorem i_writer (h : Effect i s t) (hne : t.i ≠ s.i) :
    (∃ nnn, i = .ldI nnn) ∨ (∃ x, i = .addI x) ∨ ∃ x, i = .ldF x := by
  cases h with
  | index w hi => exact hi
  | _ => exact absurd rfl hne

theorem stack_writer (h : Effect i s t) (hne : t.stack ≠ s.stack) : ∃ nnn, i = .call nnn := by
  cases h with
  | call nnn => exact ⟨nnn, rfl⟩
  | _ => exact absurd rfl hne

theorem sp_writer (h : Effect i s t) (hne : t.sp ≠ s.sp) : (∃ nnn, i = .call nnn) ∨ i = .ret := by
  cases h with
  | call nnn => exact .inl ⟨nnn, rfl⟩
  | ret => exact .inr rfl
  | _ => exact absurd rfl hne

/-- A call writes the entry at SP and no other (10_state.md R27). -/
theorem stack_entry (h : Effect i s t) (j : Nat) (hj : j < 16) (hne : j ≠ s.sp.val) :
    t.stack[j] = s.stack[j] := by
  cases h with
  | call _ h => exact Vector.getElem_set_ne h hj hne.symm
  | _ => rfl

theorem v_writer (h : Effect i s t) {r : Reg} (hne : t.getV r ≠ s.getV r) : i.writesV r := by
  cases h with
  | regs v d hv => exact hv r hne
  | screen v fb _ hv => exact hv r hne
  | _ => exact absurd rfl hne

theorem dt_writer (h : Effect i s t) (hne : t.dt ≠ s.dt) : ∃ x, i = .ldDTVx x := by
  cases h with
  | delay x => exact ⟨x, rfl⟩
  | _ => exact absurd rfl hne

theorem st_writer (h : Effect i s t) (hne : t.st ≠ s.st) : ∃ x, i = .ldSTVx x := by
  cases h with
  | sound x => exact ⟨x, rfl⟩
  | _ => exact absurd rfl hne

theorem screen_writer (h : Effect i s t) (hne : t.fb ≠ s.fb ∨ t.dirty ≠ s.dirty) :
    i = .cls ∨ ∃ x y n, i = .drw x y n := by
  cases h with
  | screen v fb hi => exact hi
  | _ => exact absurd hne (by simp)

theorem key_eq (h : Effect i s t) : t.key = s.key := by
  cases h <;> rfl

theorem dirty_of_dirty (h : Effect i s t) (hd : s.dirty = true) : t.dirty = true := by
  cases h with
  | screen => rfl
  | _ => exact hd

end Effect

/-- Settles O46: a taken fault keeps I, and of the effects only that of the three writes it. -/
theorem onlyThreeInstructionsWriteI : Obligations.OnlyThreeInstructionsWriteI := by
  intro i s t h hne
  rcases exec_effect h with he | ⟨f, rfl⟩
  · exact he.i_writer hne
  · exact absurd rfl hne

/-- Settles O47: a taken fault keeps STACK and SP, and of the effects only call and return write
them. -/
theorem onlyCallWritesStack : Obligations.OnlyCallWritesStack := by
  intro i s t h
  rcases exec_effect h with he | ⟨f, rfl⟩
  · exact ⟨he.stack_writer, he.sp_writer, he.stack_entry⟩
  · exact ⟨(absurd rfl ·), (absurd rfl ·), fun _ _ _ => rfl⟩

/-- The instructions that may write VF are those of 10_state.md R34 and those that name it. -/
theorem writesV_VF {i : Instr} (h : i.writesV VF) :
    (∃ x y, i = .addReg x y ∨ i = .subReg x y ∨ i = .shr x y ∨ i = .subnReg x y ∨ i = .shl x y) ∨
    (∃ x y n, i = .drw x y n) ∨
    (∃ nn, i = .ldImm VF nn ∨ i = .addImm VF nn ∨ i = .rnd VF nn) ∨
    (∃ y, i = .ldReg VF y ∨ i = .orReg VF y ∨ i = .andReg VF y ∨ i = .xorReg VF y) ∨
    i = .ldVxDT VF ∨ i = .ldVMem VF := by
  cases i
  case addReg x y | subReg x y | shr x y | subnReg x y | shl x y => exact .inl ⟨x, y, by simp⟩
  case drw x y n => exact .inr (.inl ⟨x, y, n, rfl⟩)
  case ldImm x nn | addImm x nn | rnd x nn => cases h; exact .inr (.inr (.inl ⟨nn, by simp⟩))
  case ldReg x y | orReg x y | andReg x y | xorReg x y =>
    cases h; exact .inr (.inr (.inr (.inl ⟨y, by simp⟩)))
  case ldVxDT => cases h; simp
  case ldVMem x =>
    have hx : 15 ≤ x.val := h
    obtain rfl : x = VF := Fin.ext (by show x.val = 15; omega)
    simp
  all_goals cases h

/-- Settles O48: what changes VF may write it, and the instructions that may are the listed ones. -/
theorem onlyFlagSettersAndNamedWritesChangeVF :
    Obligations.OnlyFlagSettersAndNamedWritesChangeVF := by
  intro i s t h hne
  rcases exec_effect h with he | ⟨f, rfl⟩
  · exact writesV_VF (he.v_writer hne)
  · exact absurd rfl hne

theorem stepWith_key_eq {r : Byte} {s t : State} (h : stepWith r s = .next t) : t.key = s.key := by
  rcases stepWith_cases h with rfl | ⟨_, _, _, _, rfl, -⟩ | ⟨-, -, ⟨i, he⟩ | rfl⟩
  · rfl
  · rfl
  · exact he.key_eq
  · rfl

theorem stepWith_dirty_of_dirty {r : Byte} {s t : State} (h : stepWith r s = .next t)
    (hd : s.dirty = true) : t.dirty = true := by
  rcases stepWith_cases h with rfl | ⟨_, _, _, _, rfl, -⟩ | ⟨-, -, ⟨i, he⟩ | rfl⟩
  · exact hd
  · exact hd
  · exact he.dirty_of_dirty hd
  · exact hd

/-- Settles O50: the writers of each item, then KEY and DIRTY over a whole STEP. -/
theorem deviceStateWriters : Obligations.DeviceStateWriters := by
  constructor
  · intro i s t h
    rcases exec_effect h with he | ⟨f, rfl⟩
    · exact ⟨he.dt_writer, he.st_writer, he.screen_writer⟩
    · exact ⟨(absurd rfl ·), (absurd rfl ·), fun hne => absurd hne (by simp)⟩
  · intro s t h
    rw [step_eq_stepWith] at h
    exact ⟨stepWith_key_eq h, stepWith_dirty_of_dirty h⟩

/-! ## ST is not read (10_state.md R29) -/

theorem skipIf_setST (s : State) (b : Byte) (c : Bool) :
    (s.setST b).skipIf c = (s.skipIf c).setST b := by
  cases c <;> rfl

theorem base_setST (s : State) (b : Byte) : (s.setST b).base = s.base := rfl

theorem readAtI_setST (s : State) (b : Byte) (n : Nat) : (s.setST b).readAtI n = s.readAtI n := rfl

theorem writeAtI_setST (s : State) (b : Byte) (bs : List Byte) :
    (s.setST b).writeAtI bs = (s.writeAtI bs).map (·.setST b) := by
  simp only [State.writeAtI, State.setST_mem, base_setST]
  cases writeRun s.mem s.base bs <;> rfl

/-- Giving ST another value commutes with every phase but that of Fx18, the faults included. -/
theorem phase_setST {i : Instr} (hi : ∀ x, i ≠ .ldSTVx x) (s : State) (b : Byte) :
    phase i (s.setST b) = (phase i s).map (·.setST b) := by
  cases i
  case ldSTVx x => exact absurd rfl (hi x)
  case call nnn =>
    rcases push_cases s s.pc with ⟨hsp, -⟩ | ⟨hsp, -⟩
    · rw [phase_call_ok nnn hsp, phase_call_ok nnn (s := s.setST b) hsp]; rfl
    · rw [phase_call_error nnn hsp, phase_call_error nnn (s := s.setST b) hsp]; rfl
  case ret =>
    rcases pop_cases s with ⟨hsp, -⟩ | ⟨hsp, -⟩
    · rw [phase_ret_ok hsp, phase_ret_ok (s := s.setST b) hsp]; rfl
    · rw [phase_ret_error hsp, phase_ret_error (s := s.setST b) hsp]; rfl
  case seImm | sneImm | seReg | sneReg => exact congrArg Except.ok (skipIf_setST ..)
  case skp x | sknp x =>
    simp only [phase, State.getV_setST, State.getKey_setST, skipIf_setST]
    cases keyOf (s.getV x) <;> rfl
  case drw x y n =>
    simp only [phase, readAtI_setST]
    cases s.readAtI n.toNat <;> rfl
  case ldVMem x =>
    simp only [phase, readAtI_setST]
    cases s.readAtI (x.val + 1) <;> rfl
  case ldB | ldMemV => exact writeAtI_setST ..
  all_goals rfl

/-- Settles O51: the phase commutes with the change of ST, whether it completes or faults. -/
theorem soundTimerIsNeverRead : Obligations.SoundTimerIsNeverRead := by
  intro i s t b hi h
  have hphase : phase i (s.setST b).advance = (phase i s.advance).map (·.setST b) :=
    phase_setST hi s.advance b
  rcases exec_cases h with he | ⟨f, he, rfl⟩ <;> rw [he] at hphase
  · exact exec_eq_next hphase
  · exact exec_eq_fault hphase

end Sys2Proof.Machine

/-! ## What a STEP and a store do to MEM (20_memory.md R52, R60, R66) -/

namespace Sys2Proof.Machine

/-! ### Who writes MEM -/

/-- A changed byte lies in the run of one of the two stores (20_memory.md R60). -/
theorem Effect.mem_writer {i : Instr} {s t : State} (h : Effect i s t) (hm : s.mem.wf) {a : Nat}
    (hne : t.mem.read a ≠ s.mem.read a) :
    s.i.toNat ≤ a ∧ ((∃ x, i = .ldB x ∧ a ≤ s.i.toNat + 2) ∨
      (∃ x, i = .ldMemV x ∧ a ≤ s.i.toNat + x.val)) := by
  cases h with
  | store bs _ _ hi =>
    have hrun : s.i.toNat ≤ a ∧ a < s.i.toNat + bs.length := by
      by_contra hout
      exact hne (by rw [State.setMem_mem, placeBytes_read hm.1, if_neg hout])
    refine ⟨hrun.1, hi.imp ?_ ?_⟩
    · rintro ⟨x, rfl, hlen⟩
      exact ⟨x, rfl, by omega⟩
    · rintro ⟨x, rfl, hlen⟩
      exact ⟨x, rfl, by omega⟩
  | _ => exact absurd rfl hne

/-- Settles O49: a taken fault keeps MEM, and of the effects only a store changes it, inside its run. -/
theorem onlyTwoInstructionsWriteMem : Obligations.OnlyTwoInstructionsWriteMem := by
  intro i s t hm h a hne
  rcases exec_effect h with he | ⟨f, rfl⟩
  · exact he.mem_writer hm hne
  · exact absurd rfl hne

/-! ### The font -/

theorem stepWith_fontIntact {r : Byte} {s t : State} (hm : s.mem.wf) (hf : s.fontIntact)
    (h : stepWith r s = .next t) : t.fontIntact := by
  rcases stepWith_cases h with rfl | ⟨_, _, _, _, rfl, -⟩ | ⟨-, -, ⟨i, he⟩ | rfl⟩
  · exact hf
  · exact hf
  · exact he.fontIntact hm hf
  · exact hf

/-- Settles O52: the inversion of a STEP; no stop writes MEM and no store reaches below 0x050. -/
theorem stepKeepsFont : Obligations.StepKeepsFont := by
  intro s t hm hf h
  rw [step_eq_stepWith] at h
  exact stepWith_fontIntact hm hf h

/-! ### A stored word is fetched -/

theorem phase_ldMemV_ok {x : Reg} {s : State} (hlo : 80 ≤ s.i.toNat) (hhi : s.i.toNat + x.val < 4096) :
    phase (.ldMemV x) s = .ok (s.setMem (placeBytes s.mem s.i.toNat (s.regsUpTo x))) := by
  rcases writeAtI_cases s (regsUpTo_ne_nil s x) with ⟨-, -, e⟩ | ⟨hfont, -⟩ | ⟨-, hrange, -⟩
  · exact e
  · omega
  · rw [regsUpTo_length] at hrange
    omega

/-- Fx55 leaves register `k` at `I + k` (42_index_memory.md R154). -/
theorem placeBytes_regsUpTo_read {s : State} (hm : s.mem.wf) {x : Reg} {k : Nat} (hk : k ≤ x.val) :
    (placeBytes s.mem s.i.toNat (s.regsUpTo x)).read (s.i.toNat + k) =
      s.getV ⟨k, by have := x.isLt; omega⟩ := by
  have hrun : s.i.toNat ≤ s.i.toNat + k ∧ s.i.toNat + k < s.i.toNat + (s.regsUpTo x).length := by
    rw [regsUpTo_length]
    omega
  rw [placeBytes_read hm.1, if_pos hrun, Nat.add_sub_cancel_left, regsUpTo_getD s x hk]

/-- The word an Fx55 stores at `I` is the word a fetch at pc = `I` composes (20_memory.md R66). -/
theorem wordAtPc_after_store {s : State} (hm : s.mem.wf) {x : Reg} (hx : 1 ≤ x.val) :
    ((s.setMem (placeBytes s.mem s.i.toNat (s.regsUpTo x))).setPc s.i).wordAtPc =
      opcodeOf (s.getV 0) (s.getV 1) :=
  congrArg₂ opcodeOf (placeBytes_regsUpTo_read hm (Nat.zero_le x.val))
    (placeBytes_regsUpTo_read hm hx)

/-- Settles O29: the store completes, pc = `I` can be fetched, and the word there is that of V0, V1. -/
theorem storedWordIsFetched : Obligations.StoredWordIsFetched := by
  intro s x i hm hrun hlo hx hhi hd
  refine ⟨_, exec_eq_next (phase_ldMemV_ok (s := s.advance) hlo hhi), ?_⟩
  have hpc : s.i.toNat < 0xFFF := by omega
  have hword := wordAtPc_after_store (s := s.advance) hm hx
  exact fetchDecodeExecute_ok hrun hpc ((congrArg decodeWord hword).trans hd)

end Sys2Proof.Machine

/-! ## Encoding and decoding (30_encoding.md R71, R76-R78) -/

namespace Sys2Proof

/-! ### The round trip from an instruction -/

theorem fitsField_reg (x : Reg) : fitsField 4 x.val = true := decide_eq_true x.isLt

theorem fitsField_toNat {n : Nat} (v : BitVec n) : fitsField n v.toNat = true := decide_eq_true v.isLt

/-- The operand types are the ranges of the fields, so no instruction is ill formed
(30_encoding.md R71). -/
theorem Instr.wellFormed_eq_true (i : Instr) : i.wellFormed = true := by
  cases i <;> simp [Instr.wellFormed, fitsField_reg, fitsField_toNat]

/-- Every instruction has its row in the opcode map (30_encoding.md R76). -/
theorem ownRow : ∀ i : Instr, Laws.OwnRow.Statement i
  | .cls => Laws.OwnRow.cls
  | .ret => Laws.OwnRow.ret
  | .jp nnn => Laws.OwnRow.jp nnn
  | .call nnn => Laws.OwnRow.call nnn
  | .seImm x nn => Laws.OwnRow.seImm x nn
  | .sneImm x nn => Laws.OwnRow.sneImm x nn
  | .seReg x y => Laws.OwnRow.seReg x y
  | .ldImm x nn => Laws.OwnRow.ldImm x nn
  | .addImm x nn => Laws.OwnRow.addImm x nn
  | .ldReg x y => Laws.OwnRow.ldReg x y
  | .orReg x y => Laws.OwnRow.orReg x y
  | .andReg x y => Laws.OwnRow.andReg x y
  | .xorReg x y => Laws.OwnRow.xorReg x y
  | .addReg x y => Laws.OwnRow.addReg x y
  | .subReg x y => Laws.OwnRow.subReg x y
  | .shr x y => Laws.OwnRow.shr x y
  | .subnReg x y => Laws.OwnRow.subnReg x y
  | .shl x y => Laws.OwnRow.shl x y
  | .sneReg x y => Laws.OwnRow.sneReg x y
  | .ldI nnn => Laws.OwnRow.ldI nnn
  | .jpV0 nnn => Laws.OwnRow.jpV0 nnn
  | .rnd x nn => Laws.OwnRow.rnd x nn
  | .drw x y n => Laws.OwnRow.drw x y n
  | .skp x => Laws.OwnRow.skp x
  | .sknp x => Laws.OwnRow.sknp x
  | .ldVxDT x => Laws.OwnRow.ldVxDT x
  | .ldVxK x => Laws.OwnRow.ldVxK x
  | .ldDTVx x => Laws.OwnRow.ldDTVx x
  | .ldSTVx x => Laws.OwnRow.ldSTVx x
  | .addI x => Laws.OwnRow.addI x
  | .ldF x => Laws.OwnRow.ldF x
  | .ldB x => Laws.OwnRow.ldB x
  | .ldMemV x => Laws.OwnRow.ldMemV x
  | .ldVMem x => Laws.OwnRow.ldVMem x

theorem decodeWord_encodeWord (i : Instr) : decodeWord (encodeWord i) = .ok i := by
  obtain ⟨r, hr, haccepts, hbuild⟩ := ownRow i
  rw [decodeWord_of_row hr haccepts, hbuild]

/-- Settles O1: the operands fit their fields, and the row of each instruction reads it back from its
word. -/
theorem decodeOfEncodeIsTheInstruction : Obligations.DecodeOfEncodeIsTheInstruction := fun i =>
  ⟨i.wellFormed_eq_true, (decode_wordBytes (encodeWord i)).trans (decodeWord_encodeWord i)⟩

/-! ### The rows by their digits: the family nibble and the fixed low nibble or byte -/

theorem accepts_family (p op : Word) (b : Word → Instr) (hp : p.toNat % 4096 = 0) :
    Row.accepts ⟨0xF000, p, b⟩ op ↔ op.toNat / 4096 = p.toNat / 4096 := by
  rw [accepts_F000]
  omega

theorem accepts_family_nibble (p op : Word) (b : Word → Instr) (hp : p.toNat / 16 % 256 = 0) :
    Row.accepts ⟨0xF00F, p, b⟩ op ↔
      op.toNat / 4096 = p.toNat / 4096 ∧ op.toNat % 16 = p.toNat % 16 := by
  rw [accepts_F00F]
  omega

theorem accepts_family_byte (p op : Word) (b : Word → Instr) (hp : p.toNat / 256 % 16 = 0) :
    Row.accepts ⟨0xF0FF, p, b⟩ op ↔
      op.toNat / 4096 = p.toNat / 4096 ∧ op.toNat % 256 = p.toNat % 256 := by
  rw [accepts_F0FF]
  omega

/-! ### The round trip from a word -/

/-- A row whose instruction is encoded as the word it was read from (30_encoding.md R71, R76). -/
def Row.Faithful (r : Row) : Prop := ∀ op, r.accepts op → encodeWord (r.build op) = op

namespace Row.Faithful

/-! The fixed digits of a pattern and its fields make up the whole word. -/

/-- A pattern without fields. -/
theorem fixed (i : Instr) : Faithful ⟨0xFFFF, encodeWord i, fun _ => i⟩ := fun op h =>
  (BitVec.eq_of_toNat_eq ((accepts_FFFF _ op _).mp h)).symm

/-- A pattern `_nnn`. -/
theorem nnn (f : BitVec 4) (g : Imm12 → Instr)
    (hg : ∀ nnn, encodeWord (g nnn) = wordNNN f nnn := by exact fun _ => rfl) :
    Faithful ⟨0xF000, wordNNN f 0#12, fun op => g (fieldNNN op)⟩ := fun op h => by
  have hfamily := (accepts_family _ op _ (by simp [wordNNN_toNat])).mp h
  rw [wordNNN_toNat, BitVec.toNat_zero] at hfamily
  refine (hg _).trans (BitVec.eq_of_toNat_eq ?_)
  rw [wordNNN_toNat, fieldNNN_toNat]
  omega

/-- A pattern `_xnn`. -/
theorem xnn (f : BitVec 4) (g : Reg → Byte → Instr)
    (hg : ∀ x nn, encodeWord (g x nn) = wordXNN f x nn := by exact fun _ _ => rfl) :
    Faithful ⟨0xF000, wordXNN f 0 0#8, fun op => g (fieldX op) (fieldNN op)⟩ := fun op h => by
  have hfamily := (accepts_family _ op _ (by simp [wordXNN_toNat])).mp h
  rw [wordXNN_toNat, Fin.val_zero, BitVec.toNat_zero] at hfamily
  refine (hg _ _).trans (BitVec.eq_of_toNat_eq ?_)
  rw [wordXNN_toNat, fieldX_val, fieldNN_toNat]
  omega

/-- A pattern `_xyn`. -/
theorem xyn (f : BitVec 4) (g : Reg → Reg → Imm4 → Instr)
    (hg : ∀ x y n, encodeWord (g x y n) = wordXY f x y n := by exact fun _ _ _ => rfl) :
    Faithful ⟨0xF000, wordXY f 0 0 0#4, fun op => g (fieldX op) (fieldY op) (fieldN op)⟩ :=
  fun op h => by
  have hfamily := (accepts_family _ op _ (by simp [wordXY_toNat])).mp h
  rw [wordXY_toNat, Fin.val_zero, BitVec.toNat_zero] at hfamily
  refine (hg _ _ _).trans (BitVec.eq_of_toNat_eq ?_)
  rw [wordXY_toNat, fieldX_val, fieldY_val, fieldN_toNat]
  omega

/-- A pattern `_xy_` with its last nibble fixed. -/
theorem xy (f n : BitVec 4) (g : Reg → Reg → Instr)
    (hg : ∀ x y, encodeWord (g x y) = wordXY f x y n := by exact fun _ _ => rfl) :
    Faithful ⟨0xF00F, wordXY f 0 0 n, fun op => g (fieldX op) (fieldY op)⟩ := fun op h => by
  have hp := wordXY_toNat f 0 0 n
  have hn := n.isLt
  rw [Fin.val_zero] at hp
  obtain ⟨hfamily, hnibble⟩ := (accepts_family_nibble _ op _ (by omega)).mp h
  refine (hg _ _).trans (BitVec.eq_of_toNat_eq ?_)
  rw [wordXY_toNat, fieldX_val, fieldY_val]
  omega

/-- A pattern `_x__` with its low byte fixed. -/
theorem x (f : BitVec 4) (nn : Byte) (g : Reg → Instr)
    (hg : ∀ x, encodeWord (g x) = wordXNN f x nn := by exact fun _ => rfl) :
    Faithful ⟨0xF0FF, wordXNN f 0 nn, fun op => g (fieldX op)⟩ := fun op h => by
  have hp := wordXNN_toNat f 0 nn
  have hnn := nn.isLt
  rw [Fin.val_zero] at hp
  obtain ⟨hfamily, hbyte⟩ := (accepts_family_byte _ op _ (by omega)).mp h
  refine (hg _).trans (BitVec.eq_of_toNat_eq ?_)
  rw [wordXNN_toNat, fieldX_val]
  omega

end Row.Faithful

theorem opcodeRows1_faithful : ∀ r ∈ opcodeRows1, r.Faithful := by
  simp only [opcodeRows1, List.forall_mem_cons]
  exact ⟨.fixed .cls, .fixed .ret, .nnn 0x1 .jp, .nnn 0x2 .call,
    .xnn 0x3 .seImm, .xnn 0x4 .sneImm, .xy 0x5 0x0 .seReg,
    .xnn 0x6 .ldImm, .xnn 0x7 .addImm, List.forall_mem_nil _⟩

theorem opcodeRows2_faithful : ∀ r ∈ opcodeRows2, r.Faithful := by
  simp only [opcodeRows2, List.forall_mem_cons]
  exact ⟨.xy 0x8 0x0 .ldReg, .xy 0x8 0x1 .orReg, .xy 0x8 0x2 .andReg,
    .xy 0x8 0x3 .xorReg, .xy 0x8 0x4 .addReg, .xy 0x8 0x5 .subReg,
    .xy 0x8 0x6 .shr, .xy 0x8 0x7 .subnReg, .xy 0x8 0xE .shl,
    .xy 0x9 0x0 .sneReg, .nnn 0xA .ldI, .nnn 0xB .jpV0,
    .xnn 0xC .rnd, .xyn 0xD .drw, List.forall_mem_nil _⟩

theorem opcodeRows3_faithful : ∀ r ∈ opcodeRows3, r.Faithful := by
  simp only [opcodeRows3, List.forall_mem_cons]
  exact ⟨.x 0xE 0x9E .skp, .x 0xE 0xA1 .sknp, .x 0xF 0x07 .ldVxDT,
    .x 0xF 0x0A .ldVxK, .x 0xF 0x15 .ldDTVx, .x 0xF 0x18 .ldSTVx,
    .x 0xF 0x1E .addI, .x 0xF 0x29 .ldF, .x 0xF 0x33 .ldB,
    .x 0xF 0x55 .ldMemV, .x 0xF 0x65 .ldVMem, List.forall_mem_nil _⟩

theorem opcodeTable_faithful : ∀ r ∈ opcodeTable, r.Faithful := by
  simp only [opcodeTable, List.forall_mem_append]
  exact ⟨⟨opcodeRows1_faithful, opcodeRows2_faithful⟩, opcodeRows3_faithful⟩

/-- Settles O2: the row a word selects encodes its instruction as that word. -/
theorem recognizedWordIsItsInstructionsWord : Obligations.RecognizedWordIsItsInstructionsWord := by
  intro op i h
  obtain ⟨r, hr, haccepts, rfl⟩ := row_of_decodeWord h
  exact opcodeTable_faithful r hr op haccepts

/-! ### At most one row accepts a word -/

/-- Of rows that are disjoint in pairs, at most one accepts a word (30_encoding.md R77). -/
theorem filter_accepts_length_le_one {rows : List Row}
    (h : rows.Pairwise fun r q => r.pat &&& q.mask ≠ q.pat &&& r.mask) (op : Word) :
    (rows.filter (·.accepts op)).length ≤ 1 := by
  match hf : rows.filter (·.accepts op) with
  | [] | [_] => simp [hf]
  | r :: q :: rest =>
    have hdisjoint := h.filter (·.accepts op)
    have haccepts : ∀ a ∈ rows.filter (·.accepts op), a.accepts op := by simp
    rw [hf] at hdisjoint haccepts
    have hne := List.rel_of_pairwise_cons hdisjoint List.mem_cons_self
    exact absurd (accepts_overlap (haccepts r (by simp)) (haccepts q (by simp))) hne

/-- Settles O3: the rows of the opcode map are disjoint in pairs. -/
theorem atMostOneRowMatches : Obligations.AtMostOneRowMatches :=
  filter_accepts_length_le_one opcodeTable_disjoint

/-! ### The UNRECOGNIZED words -/

/-- A word is UNRECOGNIZED when no row accepts it (30_encoding.md R78). -/
theorem decodeWord_unrecognized_iff (op : Word) :
    decodeWord op = .error .unrecognized ↔ ∀ r ∈ opcodeTable, ¬ r.accepts op := by
  rw [← List.find?_eq_none, decodeWord]
  cases opcodeTable.find? (·.accepts op) <;> simp

/-- In family 8 the last nibbles R78 lists are those no row fixes. -/
theorem unlisted_nibble_iff {n : Nat} (h : n < 16) :
    n ∈ [0x8, 0x9, 0xA, 0xB, 0xC, 0xD, 0xF] ↔ n ∉ [0x0, 0x1, 0x2, 0x3, 0x4, 0x5, 0x6, 0x7, 0xE] := by
  revert n
  decide

/-- Settles O4: the rows by their digits, then family by family. -/
theorem unrecognizedWordsAreTheListedOnes : Obligations.UnrecognizedWordsAreTheListedOnes := by
  intro op
  have hop := op.isLt
  have hfamily : op.toNat / 4096 < 16 := by omega
  have hzero : op.toNat < 0x1000 ↔ op.toNat / 4096 = 0 := by omega
  have hE0 : op.toNat = 0x00E0 → op.toNat / 4096 = 0 := by omega
  have hEE : op.toNat = 0x00EE → op.toNat / 4096 = 0 := by omega
  rw [decodeWord_unrecognized_iff, hzero, unlisted_nibble_iff (Nat.mod_lt _ (by decide))]
  simp only [opcodeTable, opcodeRows1, opcodeRows2, opcodeRows3, List.forall_mem_append,
    List.forall_mem_cons]
  simp (discharger := decide) only [accepts_family, accepts_family_nibble, accepts_family_byte,
    accepts_FFFF]
  generalize op.toNat / 4096 = family at *
  interval_cases family <;> simp_all

/-- Settles O5: each word has one row. -/
theorem sampleWordsDecode : Obligations.SampleWordsDecode := by
  unfold Obligations.SampleWordsDecode
  decide

end Sys2Proof

/-! ## Fetch and STEP (30_encoding.md R72-R74, R79, R80) -/

namespace Sys2Proof.Machine

/-- The opcode is composed of the bytes at pc and pc + 1, high byte first (30_encoding.md R73). -/
theorem wordAtPc_eq {s : State} {op : Word}
    (h : op.toNat = (s.mem.read s.pc.toNat).toNat * 256 + (s.mem.read (s.pc.toNat + 1)).toNat) :
    s.wordAtPc = op := by
  rw [State.wordAtPc, opcodeOf, ← h, low16, BitVec.ofNat_toNat, BitVec.setWidth_eq]

/-- Settles O6: the fetched word is `op`, and a STEP runs what it decodes to. -/
theorem stepRunsTheDecodedInstruction : Obligations.StepRunsTheDecodedInstruction := by
  intro s op i hrun hpc hop hd
  rw [← wordAtPc_eq hop] at hd
  exact ⟨fetchDecodeExecute_ok hrun hpc hd, fun r => fetchDecodeExecute_ok hrun hpc hd⟩

/-- Settles O7: the fetched word is `op`, and a STEP of an UNRECOGNIZED word is the advance alone. -/
theorem unrecognizedWordOnlyAdvancesPc : Obligations.UnrecognizedWordOnlyAdvancesPc := by
  intro s op hrun hpc hop hd
  rw [← wordAtPc_eq hop] at hd
  exact ⟨fetchDecodeExecute_unrecognized hrun hpc hd,
    fun r => fetchDecodeExecute_unrecognized hrun hpc hd⟩

/-- A fetch whose second byte is outside MEM is a taken fault with opcode 0 (30_encoding.md R74). -/
theorem fetchDecodeExecute_lastByte {run : Instr → State → Host.Outcome State Fault Refusal}
    {s : State} (hs : s.status.state = .running) (hp : s.pc.toNat = 0xFFF) :
    fetchDecodeExecute run s = .next (s.takeFault 0 (.memRange 0x1000)) := by
  simp only [fetchDecodeExecute, hs, fetch_fault hp]

/-- Settles O9: the taken fault of the fetch, as the STATUS record of R214. -/
theorem fetchAtLastByteFaults : Obligations.FetchAtLastByteFaults := by
  intro s hrun hpc
  have hstep : step s = .next (s.takeFault 0 (.memRange 0x1000)) :=
    fetchDecodeExecute_lastByte hrun (congrArg BitVec.toNat hpc)
  rw [hstep, takeFault_eq]
  rfl

/-! ### A STEP answers a next state -/

theorem execute_next (i : Instr) (s : State) (phase : State → Except Fault State) :
    ∃ t, s.execute i phase = .next t := by
  rcases execute_cases i s phase with ⟨t, -, h⟩ | ⟨f, -, h⟩
  · exact ⟨t, h⟩
  · exact ⟨_, h⟩

/-- Every instruction runs in an execute phase, Cxnn with the host's byte as well. -/
theorem execWith_eq_execute (r : Byte) (i : Instr) (s : State) :
    ∃ body, execWith r i s = s.execute i body := by
  by_cases hi : ∃ x nn, i = .rnd x nn
  · obtain ⟨x, nn, rfl⟩ := hi
    exact ⟨fun s => .ok ((s.setV x (r &&& nn)).nextDraw), rfl⟩
  · exact ⟨phase i, (execWith_eq_exec (fun x nn e => hi ⟨x, nn, e⟩) r s).trans (exec_eq_execute i s)⟩

theorem execWith_next (r : Byte) (i : Instr) (s : State) : ∃ t, execWith r i s = .next t := by
  obtain ⟨body, h⟩ := execWith_eq_execute r i s
  exact h ▸ execute_next i s body

theorem stepWith_next (r : Byte) (s : State) : ∃ t, stepWith r s = .next t := by
  rcases fetchDecodeExecute_cases (execWith r) s with
    ⟨-, held⟩ | ⟨-, ⟨-, halt⟩ | ⟨-, fault⟩ | ⟨-, ⟨i, -, run⟩ | ⟨-, skip⟩⟩⟩
  · exact ⟨_, held⟩
  · exact ⟨_, halt⟩
  · exact ⟨_, fault⟩
  · exact (execWith_next r i s).imp fun _ => run.trans
  · exact ⟨_, skip⟩

/-- Settles O37: `step` is a STEP(r), and no outcome of a STEP(r) but a next state is possible. -/
theorem stepNeverRefuses : Obligations.StepNeverRefuses := by
  intro s r
  rw [step_eq_stepWith]
  exact ⟨stepWith_next _ s, stepWith_next r s⟩

/-! ### A word placed for the next fetch (log 3) -/

theorem decodeTableWord_eq_some {n w : Nat} {i : Instr} (h : decodeTableWord n w = some i) :
    decodeWord (tableWord n w) = .ok i := by
  rw [decodeTableWord, decode_wordBytes] at h
  cases hd : decodeWord (tableWord n w) with
  | ok j => rw [hd] at h; exact congrArg Except.ok (Option.some.inj h)
  | error e => rw [hd] at h; cases h

/-- The prepared state can fetch, and its MEM is the old one. -/
theorem readyToFetch_spec (s : State) :
    s.readyToFetch.mem = s.mem ∧ s.readyToFetch.status.state = .running ∧
      s.readyToFetch.pc.toNat < 0xFFF := by
  by_cases hpc : s.pc.toNat < 0xFFF
  · cases hst : s.status.state <;> simp [State.readyToFetch, hpc, hst, Status.reset]
  · cases hst : s.status.state <;> simp [State.readyToFetch, hpc, hst, Status.reset]

theorem readyToFetch_eq_self {s : State} (hs : s.status.state = .running)
    (hp : s.pc.toNat < 0xFFF) : s.readyToFetch = s := by
  simp only [State.readyToFetch, hp, if_true, hs]

/-- A placed word is the word a fetch composes (30_encoding.md R73). -/
theorem wordAtPc_placeWord {s : State} (hm : s.mem.wf) (op : Word) :
    (s.placeWord op).wordAtPc = op := by
  have hhi : (s.placeWord op).mem.read s.pc.toNat = op.extractLsb' 8 8 := by
    simp [State.placeWord, placeBytes_read hm.1, wordBytes]
  have hlo : (s.placeWord op).mem.read (s.pc.toNat + 1) = op.extractLsb' 0 8 := by
    simp [State.placeWord, placeBytes_read hm.1, wordBytes]
  exact (congrArg₂ opcodeOf hhi hlo).trans (opcodeOf_wordBytes op)

theorem placeWord_keepsMemOutside {s : State} (hm : s.mem.wf) (op : Word) :
    s.keepsMemOutside (s.placeWord op) s.pc.toNat 2 := by
  intro a ha
  rw [State.placeWord, State.setMem_mem, placeBytes_read hm.1, if_neg (by simp [wordBytes]; omega)]

/-- Settles O11: the prepared state can fetch, and the word it fetches is the placed one. -/
theorem fetchWordRunsNext : Obligations.FetchWordRunsNext := by
  intro s w i hm hd
  obtain ⟨hmem, hrun, hpc⟩ := readyToFetch_spec s
  have hword := wordAtPc_placeWord (hmem ▸ hm) (tableWord 16 w)
  refine ⟨fetchDecodeExecute_ok hrun hpc ?_, fun hs hp => ?_⟩
  · exact (congrArg decodeWord hword).trans (decodeTableWord_eq_some hd)
  · rw [State.withFetchWord, readyToFetch_eq_self hs hp]
    exact ⟨rfl, placeWord_keepsMemOutside hm _⟩

end Sys2Proof.Machine

/-! ## Control transfer and skips (40_control_flow.md) -/

namespace Sys2Proof.Machine

/-- A next state that differs from the state before in pc alone. -/
theorem keepsAllButV_setPc (s : State) (w : Word) : s.keepsAllButV (s.setPc w) [] where
  v _ _ := rfl
  i := rfl
  mem _ := rfl
  stack := ⟨rfl, rfl⟩
  timers := ⟨rfl, rfl⟩
  screen := ⟨rfl, rfl⟩
  rest := ⟨rfl, rfl⟩

/-- What a call and a return leave: pc, SP and STACK may differ, nothing else. -/
theorem keepsAllButStack_of_stack_sp_pc (s : State) (stack : Vector Word 16) (sp : Fin 17) (pc : Word) :
    s.keepsAllButStack { s with stack := stack, sp := sp, pc := pc } where
  v _ _ := rfl
  i := rfl
  mem _ := rfl
  timers := ⟨rfl, rfl⟩
  screen := ⟨rfl, rfl⟩
  rest := ⟨rfl, rfl⟩

/-! ### Jumps -/

/-- The sum of Bnnn fits 16 bits, so it is not reduced (R107). -/
theorem jpV0_target_toNat (b : Byte) (nnn : Imm12) :
    (zext16 b + immAddr nnn).toNat = b.toNat + nnn.toNat := by
  have hb := b.isLt
  have hn := nnn.isLt
  rw [BitVec.toNat_add, zext16_toNat, immAddr_toNat]
  omega

/-- Settles O12: each jump's phase is one write of pc, over the advance. -/
theorem jumpsSetPc : Obligations.JumpsSetPc := by
  intro s nnn
  constructor
  · exact ⟨s.setPc (immAddr nnn), exec_eq_next rfl, immAddr_toNat nnn, keepsAllButV_setPc s _⟩
  · exact ⟨s.setPc (zext16 (s.getV 0) + immAddr nnn), exec_eq_next rfl, jpV0_target_toNat _ nnn,
      keepsAllButV_setPc s _⟩

/-! ### Call and return -/

/-- The state a call leaves where the stack has room (R102). -/
def State.afterCall (s : State) (nnn : Imm12) (h : s.sp.val < 16) : State := { s with
  stack := s.stack.set s.sp.val (s.pc + 2), sp := ⟨s.sp.val + 1, by omega⟩, pc := immAddr nnn }

theorem exec_call_next (nnn : Imm12) {s : State} (h : s.sp.val < 16) :
    exec (.call nnn) s = .next (s.afterCall nnn h) :=
  exec_eq_next (phase_call_ok (s := s.advance) nnn h)

theorem exec_ret_next {s : State} (h : 0 < s.sp.val) :
    exec .ret s = .next { s with
      sp := ⟨s.sp.val - 1, by omega⟩, pc := s.stack[s.sp.val - 1]'(by omega) } :=
  exec_eq_next (phase_ret_ok (s := s.advance) h)

/-- Settles O13: the push below SP = 16, and at SP = 16 the overflow taken with the call's own word. -/
theorem callPushesReturnAddress : Obligations.CallPushesReturnAddress := by
  intro s nnn
  constructor
  · intro h
    refine ⟨_, exec_call_next nnn h, Vector.getElem_set_self h, rfl, immAddr_toNat nnn, ?_,
      keepsAllButStack_of_stack_sp_pc s _ _ _⟩
    intro j hj hne
    exact Vector.getElem_set_ne h hj (Ne.symm hne)
  · intro h
    have hword : (encodeWord (.call nnn)).toNat = 0x2000 + nnn.toNat := wordNNN_toNat 0x2 nnn
    rw [exec_eq_fault (phase_call_error nnn h), takeFault_eq, hword]
    rfl

/-- Settles O14: the pop above SP = 0, and at SP = 0 the underflow. -/
theorem returnPopsIntoPc : Obligations.ReturnPopsIntoPc := by
  intro s
  constructor
  · intro h
    exact ⟨_, exec_ret_next h, rfl, rfl, rfl, keepsAllButStack_of_stack_sp_pc s _ _ _⟩
  · intro h
    rw [exec_eq_fault (phase_ret_error h), takeFault_eq]
    rfl

/-- A return right after a call pops what the call pushed, and SP is back (R100, R102). -/
theorem exec_ret_afterCall (nnn : Imm12) {s : State} (h : s.sp.val < 16) :
    exec .ret (s.afterCall nnn h) =
      .next { s with pc := s.pc + 2, stack := s.stack.set s.sp.val (s.pc + 2) } := by
  rw [exec_ret_next (Nat.succ_pos _)]
  simp [State.afterCall]

/-- Settles O15: the call leaves MEM and STATUS alone, so the STEP after it fetches the 00EE at nnn,
which pops the pushed address. -/
theorem callThenReturnComesBack : Obligations.CallThenReturnComesBack := by
  intro s nnn hrun hpc hcall hnnn hhi hlo hsp
  have hfirst : step s = exec (.call nnn) s := fetchDecodeExecute_ok hrun hpc hcall
  have htarget : (s.afterCall nnn hsp).pc.toNat = nnn.toNat := immAddr_toNat nnn
  have hword : (s.afterCall nnn hsp).wordAtPc = 0x00EE := by
    have hbytes : opcodeOf 0x00 0xEE = 0x00EE := by decide
    rw [State.wordAtPc, htarget]
    exact (congrArg₂ opcodeOf hhi hlo).trans hbytes
  have hret : decodeWord (s.afterCall nnn hsp).wordAtPc = .ok .ret :=
    hword ▸ decodeWord_encodeWord .ret
  have hsecond : step (s.afterCall nnn hsp) = exec .ret (s.afterCall nnn hsp) :=
    fetchDecodeExecute_ok hrun (htarget ▸ hnnn) hret
  exact ⟨_, _, hfirst.trans (exec_call_next nnn hsp), hsecond.trans (exec_ret_afterCall nnn hsp), rfl⟩

/-! ### Skips -/

/-- A skip over fetch's advance: 4 past the instruction where the condition holds, 2 otherwise. -/
theorem skipIf_advance (s : State) (c : Bool) :
    s.advance.skipIf c = s.setPc (if c then s.pc + 4 else s.pc + 2) := by
  cases c
  · rfl
  · exact congrArg s.setPc (BitVec.add_assoc s.pc 2 2)

/-- An instruction that skips on `c` changes pc alone, by 4 where `c` holds and by 2 otherwise. -/
theorem exec_skip {i : Instr} {s : State} {c : Bool} {p : Prop} [Decidable p]
    (h : phase i s.advance = .ok (s.advance.skipIf c)) (hc : c = true ↔ p) :
    ∃ t, exec i s = .next t ∧ s.keepsAllButV t [] ∧ t.pc = if p then s.pc + 4 else s.pc + 2 :=
  ⟨_, exec_eq_next (h.trans (congrArg _ (skipIf_advance s c))), keepsAllButV_setPc s _,
    if_congr hc rfl rfl⟩

/-- Settles O16: the phase of each of the four is a skip on its own condition. -/
theorem skipsAddTwoWhenConditionHolds : Obligations.SkipsAddTwoWhenConditionHolds := by
  intro s x y nn
  exact ⟨exec_skip (i := .seImm x nn) rfl beq_iff_eq, exec_skip (i := .sneImm x nn) rfl bne_iff_ne,
    exec_skip (i := .seReg x y) rfl beq_iff_eq, exec_skip (i := .sneReg x y) rfl bne_iff_ne⟩

end Sys2Proof.Machine

/-! ## Register loads, arithmetic and logic (41_alu.md) -/

namespace Sys2Proof.Machine

/-! ### Instructions that write V and advance pc -/

/-- A next state that differs from the state before in V, pc and the model's draw counter alone. -/
theorem keepsAllButV_of_v_pc_draws {s : State} {v : Vector Byte 16} {pc : Word} {draws : Nat}
    {ws : List Reg} (h : s.keepsVExcept { s with v := v, pc := pc, draws := draws } ws) :
    s.keepsAllButV { s with v := v, pc := pc, draws := draws } ws where
  v := h
  i := rfl
  mem _ := rfl
  stack := ⟨rfl, rfl⟩
  timers := ⟨rfl, rfl⟩
  screen := ⟨rfl, rfl⟩
  rest := ⟨rfl, rfl⟩

theorem keepsVExcept_setV (s : State) (x : Reg) (b : Byte) : s.keepsVExcept (s.setV x b) [x] :=
  fun _ hr => s.getV_setV_of_ne b (List.ne_of_not_mem_cons hr)

theorem keepsVExcept_setVFlag (s : State) (x : Reg) (b : Byte) (f : Bool) :
    s.keepsVExcept (s.setVFlag x b f) [x, VF] := by
  intro r hr
  obtain ⟨hx, hf⟩ : r ≠ x ∧ r ≠ VF := by simpa using hr
  rw [State.getV_setVFlag, if_neg hf, if_neg hx]

/-- An instruction whose phase writes one register: its value, and the frame. -/
theorem exec_setV {i : Instr} {s : State} {x : Reg} {b : Byte}
    (h : phase i s.advance = .ok (s.advance.setV x b)) :
    ∃ t, exec i s = .next t ∧ t.getV x = b ∧ t.pc = s.pc + 2 ∧ s.keepsAllButV t [x] :=
  ⟨_, exec_eq_next h, State.getV_setV_same _ x b, rfl,
    keepsAllButV_of_v_pc_draws (keepsVExcept_setV s x b)⟩

/-- An instruction whose phase writes a register and then the flag: the result where x is not F, the
flag in VF for every x, and the frame. -/
theorem exec_setVFlag {i : Instr} {s : State} {x : Reg} {b : Byte} {f : Bool}
    (h : phase i s.advance = .ok (s.advance.setVFlag x b f)) :
    ∃ t, exec i s = .next t ∧ (x ≠ VF → t.getV x = b) ∧ t.getV VF = flagByte f ∧
      t.pc = s.pc + 2 ∧ s.keepsAllButV t [x, VF] := by
  refine ⟨_, exec_eq_next h, fun hx => ?_, ?_, rfl,
    keepsAllButV_of_v_pc_draws (keepsVExcept_setVFlag s x b f)⟩
  · rw [State.getV_setVFlag, if_neg hx, if_pos rfl]
  · rw [State.getV_setVFlag, if_pos rfl]

/-- Cxnn with the byte `r`: the masked byte, and the frame. -/
theorem execWith_rnd (r : Byte) (x : Reg) (nn : Byte) (s : State) :
    ∃ t, execWith r (.rnd x nn) s = .next t ∧ t.getV x = r &&& nn ∧ t.pc = s.pc + 2 ∧
      s.keepsAllButV t [x] :=
  ⟨(s.advance.setV x (r &&& nn)).nextDraw, rfl, State.getV_setV_same _ x _, rfl,
    keepsAllButV_of_v_pc_draws (keepsVExcept_setV s x _)⟩

/-! ### The results and the flags, as integers (R126-R130, R132, R133) -/

theorem addResult_toNat (a b : Byte) : (addResult a b).toNat = (a.toNat + b.toNat) % 256 :=
  BitVec.toNat_ofNat _ 8

theorem subResult_toNat (a b : Byte) :
    ((subResult a b).toNat : Int) = (a.toNat - b.toNat : Int) % 256 := by
  have h : (subResult a b).toNat = (a.toNat + 256 - b.toNat) % 256 := BitVec.toNat_ofNat _ 8
  have hb := b.isLt
  omega

theorem shrResult_toNat (a : Byte) : (shrResult a).toNat = a.toNat / 2 := by
  have h : (shrResult a).toNat = a.toNat / 2 % 256 := BitVec.toNat_ofNat _ 8
  have ha := a.isLt
  omega

theorem shlResult_toNat (a : Byte) : (shlResult a).toNat = a.toNat * 2 % 256 :=
  BitVec.toNat_ofNat _ 8

theorem flagByte_toNat (f : Bool) : (flagByte f).toNat = f.toNat := by
  cases f <;> rfl

theorem flagByte_carry (a b : Byte) :
    flagByte (carry a b) = if 255 < a.toNat + b.toNat then 1 else 0 :=
  if_congr decide_eq_true_iff rfl rfl

theorem flagByte_notBorrow (a b : Byte) :
    flagByte (notBorrow a b) = if a.toNat < b.toNat then 0 else 1 := by
  rw [← ite_not]
  exact if_congr (decide_eq_true_iff.trans Nat.not_lt.symm) rfl rfl

theorem flagByte_shrOut_toNat (a : Byte) : (flagByte (shrOut a)).toNat = a.toNat % 2 := by
  have h : (a.toNat.testBit 0).toNat = a.toNat / 2 ^ 0 % 2 := Nat.toNat_testBit _ 0
  rwa [pow_zero, Nat.div_one, ← flagByte_toNat] at h

theorem flagByte_shlOut_toNat (a : Byte) : (flagByte (shlOut a)).toNat = a.toNat / 128 := by
  have h : (a.toNat.testBit 7).toNat = a.toNat / 2 ^ 7 % 2 := Nat.toNat_testBit _ 7
  have ha := a.isLt
  rw [flagByte_toNat]
  exact h.trans (by omega)

/-! ### The instructions with a flag -/

/-- Settles O20: the sum, then the carry. -/
theorem addSetsCarry : Obligations.AddSetsCarry := by
  intro s x y
  obtain ⟨t, hexec, hx, hf, hpc, hkeeps⟩ := exec_setVFlag (i := .addReg x y) (s := s) rfl
  exact ⟨t, hexec, fun h => hx h ▸ addResult_toNat _ _, hf.trans (flagByte_carry _ _), hpc, hkeeps⟩

/-- Settles O21: the difference, then not-borrow; 8xy7 is 8xy5 with the operands exchanged. -/
theorem subtractSetsNotBorrow : Obligations.SubtractSetsNotBorrow := by
  intro s x y
  constructor
  · obtain ⟨t, hexec, hx, hf, hpc, hkeeps⟩ := exec_setVFlag (i := .subReg x y) (s := s) rfl
    exact ⟨t, hexec, fun h => hx h ▸ subResult_toNat _ _, hf.trans (flagByte_notBorrow _ _), hpc,
      hkeeps⟩
  · obtain ⟨t, hexec, hx, hf, hpc, hkeeps⟩ := exec_setVFlag (i := .subnReg x y) (s := s) rfl
    exact ⟨t, hexec, fun h => hx h ▸ subResult_toNat _ _, hf.trans (flagByte_notBorrow _ _), hpc,
      hkeeps⟩

/-- Settles O22: the shifted value, then the bit the shift drops. -/
theorem shiftsMoveDroppedBitToFlag : Obligations.ShiftsMoveDroppedBitToFlag := by
  intro s x y
  constructor
  · obtain ⟨t, hexec, hx, hf, hpc, hkeeps⟩ := exec_setVFlag (i := .shr x y) (s := s) rfl
    exact ⟨t, hexec, fun h => hx h ▸ shrResult_toNat _, hf ▸ flagByte_shrOut_toNat _, hpc, hkeeps⟩
  · obtain ⟨t, hexec, hx, hf, hpc, hkeeps⟩ := exec_setVFlag (i := .shl x y) (s := s) rfl
    exact ⟨t, hexec, fun h => hx h ▸ shlResult_toNat _, hf ▸ flagByte_shlOut_toNat _, hpc, hkeeps⟩

/-! ### The instructions without a flag -/

/-- Settles O17: each phase is one register write. -/
theorem loadsWriteOnlyVx : Obligations.LoadsWriteOnlyVx := by
  intro s x y nn
  exact ⟨exec_setV (i := .ldImm x nn) rfl, exec_setV (i := .ldReg x y) rfl⟩

/-- Settles O18: one register write, of the sum modulo 256. -/
theorem addImmediateWrapsWithoutFlag : Obligations.AddImmediateWrapsWithoutFlag := by
  intro s x nn
  obtain ⟨t, hexec, hx, hpc, hkeeps⟩ := exec_setV (i := .addImm x nn) (s := s) rfl
  exact ⟨t, hexec, hx ▸ addResult_toNat _ _, hpc, hkeeps⟩

/-- Settles O19: one register write each, of the bitwise operation. -/
theorem logicIsBitwiseWithoutFlag : Obligations.LogicIsBitwiseWithoutFlag := by
  intro s x y
  refine ⟨?_, ?_, ?_⟩
  · obtain ⟨t, hexec, hx, hpc, hkeeps⟩ := exec_setV (i := .orReg x y) (s := s) rfl
    exact ⟨t, hexec, hpc, hkeeps, fun _ => hx ▸ BitVec.getLsbD_or⟩
  · obtain ⟨t, hexec, hx, hpc, hkeeps⟩ := exec_setV (i := .andReg x y) (s := s) rfl
    exact ⟨t, hexec, hpc, hkeeps, fun _ => hx ▸ BitVec.getLsbD_and⟩
  · obtain ⟨t, hexec, hx, hpc, hkeeps⟩ := exec_setV (i := .xorReg x y) (s := s) rfl
    exact ⟨t, hexec, hpc, hkeeps, fun _ => hx ▸ BitVec.getLsbD_xor⟩

/-- Settles O23: the supplied byte masked; `exec` is the meaning with the byte of the free draw. -/
theorem randomIsMasked : Obligations.RandomIsMasked := by
  intro s x nn
  exact ⟨fun r => execWith_rnd r x nn s,
    Config.randomByte s.draws, exec_eq_execWith (.rnd x nn) s ▸ execWith_rnd _ x nn s⟩

end Sys2Proof.Machine

/-! ## The index register and the memory transfers (42_index_memory.md) -/

namespace Sys2Proof.Machine

/-! ### Writes of I -/

/-- A glyph address fits 16 bits, so it is not reduced (R152). -/
theorem glyphAddr_toNat (b : Byte) : (glyphAddr b).toNat = b.toNat * 5 :=
  (BitVec.toNat_ofNat _ 16).trans (Nat.mod_eq_of_lt (by have := b.isLt; omega))

/-- An instruction whose phase writes I: the value, and the frame. -/
theorem exec_setI {i : Instr} {s : State} {w : Word} (h : phase i s.advance = .ok (s.advance.setI w)) :
    ∃ t, exec i s = .next t ∧ t.i.toNat = w.toNat ∧ t.pc = s.pc + 2 ∧ s.keepsAllButI t :=
  ⟨_, exec_eq_next h, rfl, rfl, {
    v := fun _ _ => rfl
    mem := fun _ => rfl
    stack := ⟨rfl, rfl⟩
    timers := ⟨rfl, rfl⟩
    screen := ⟨rfl, rfl⟩
    rest := ⟨rfl, rfl⟩ }⟩

/-- Settles O25: each phase is one write of I, of the value as an integer. -/
theorem indexWrites : Obligations.IndexWrites := by
  intro s nnn x
  refine ⟨?_, ?_, ?_⟩
  · exact immAddr_toNat nnn ▸ exec_setI (i := .ldI nnn) rfl
  · exact BitVec.toNat_ofNat (s.i.toNat + (s.getV x).toNat) 16 ▸ exec_setI (i := .addI x) rfl
  · exact glyphAddr_toNat (s.getV x) ▸ exec_setI (i := .ldF x) rfl

/-! ### Faults of a transfer (60_exceptions.md R211, R214) -/

/-- A phase that faults at the address `a`: the STATUS record, with the word as a number. -/
theorem exec_eq_faultedAs {i : Instr} {s : State} {f : Fault} {op a : Nat}
    (h : phase i s.advance = .error f) (hop : (encodeWord i).toNat = op) (ha : f.addr = low16 a) :
    exec i s = .next (s.faultedAs f.cause op a) := by
  rw [exec_eq_fault h, takeFault_eq, hop, ha]
  simp only [State.faultedAs, BitVec.ofNat_toNat, BitVec.setWidth_eq]

/-- The word of a row `Fxnn`, its fixed digits apart from its register. -/
theorem wordXNN_F_toNat (x : Reg) (nn : Byte) :
    (wordXNN 0xF x nn).toNat = 0xF000 + nn.toNat + x.val * 256 := by
  have hf : (0xF : BitVec 4).toNat = 15 := rfl
  rw [wordXNN_toNat, hf]
  omega

/-! ### Stores: the three things an instruction whose phase writes a run at I can do -/

/-- What a store leaves: pc and the run's bytes may differ, nothing else. -/
theorem keepsAllButMem_placeBytes {s : State} (hm : s.mem.wf) (bs : List Byte) :
    s.keepsAllButMem (s.advance.setMem (placeBytes s.mem s.i.toNat bs)) s.i.toNat bs.length where
  v _ _ := rfl
  i := rfl
  mem b hb := (placeBytes_read hm.1 _ bs b).trans (if_neg (by omega))
  stack := ⟨rfl, rfl⟩
  timers := ⟨rfl, rfl⟩
  screen := ⟨rfl, rfl⟩
  rest := ⟨rfl, rfl⟩

section Store

variable {i : Instr} {s : State} {bs : List Byte} (hphase : phase i s.advance = s.advance.writeAtI bs)

include hphase

/-- A run that is wholly writable is stored byte by byte, and nothing outside it changes. -/
theorem exec_store (hm : s.mem.wf) (hn : bs ≠ []) (hlo : 0x50 ≤ s.i.toNat)
    (hhi : s.i.toNat + bs.length ≤ 4096) :
    ∃ t, exec i s = .next t ∧ (∀ k < bs.length, t.mem.read (s.i.toNat + k) = bs.getD k 0) ∧
      t.pc = s.pc + 2 ∧ s.keepsAllButMem t s.i.toNat bs.length := by
  rcases writeAtI_cases s.advance hn with ⟨-, -, e⟩ | ⟨hfont, -⟩ | ⟨-, hrange, -⟩
  · refine ⟨_, exec_eq_next (hphase.trans e), fun k hk => ?_, rfl, keepsAllButMem_placeBytes hm bs⟩
    have hread := placeBytes_read hm.1 s.i.toNat bs (s.i.toNat + k)
    rwa [if_pos (by omega), Nat.add_sub_cancel_left] at hread
  · exact absurd hfont (Nat.not_lt.mpr hlo)
  · exact absurd hrange (Nat.not_lt.mpr hhi)

/-- A run that starts in the font stores nothing and faults there (20_memory.md R52). -/
theorem exec_store_font {op : Nat} (hop : (encodeWord i).toNat = op) (hn : bs ≠ [])
    (hlo : s.i.toNat < 0x50) : exec i s = .next (s.faultedAs .fontWrite op s.i.toNat) := by
  rcases writeAtI_cases s.advance hn with ⟨hge, -⟩ | ⟨-, e⟩ | ⟨hge, -⟩
  · exact absurd hlo (Nat.not_lt.mpr hge)
  · exact exec_eq_faultedAs (hphase.trans e) hop rfl
  · exact absurd hlo (Nat.not_lt.mpr hge)

/-- A run that leaves MEM stores nothing and faults at its lowest address outside (20_memory.md R57). -/
theorem exec_store_range {op : Nat} (hop : (encodeWord i).toNat = op) (hn : bs ≠ [])
    (hlo : 0x50 ≤ s.i.toNat) (hhi : 4096 < s.i.toNat + bs.length) :
    exec i s = .next (s.faultedAs .memRange op (max s.i.toNat 0x1000)) := by
  rcases writeAtI_cases s.advance hn with ⟨-, hle, -⟩ | ⟨hlt, -⟩ | ⟨-, -, e⟩
  · exact absurd hhi (Nat.not_lt.mpr hle)
  · exact absurd hlt (Nat.not_lt.mpr hlo)
  · exact exec_eq_faultedAs (hphase.trans e) hop rfl

end Store

/-- The three digits fit a byte, so each is stored as it is (R153). -/
theorem bcdDigits_toNat (b : Byte) :
    ((bcdDigits b).getD 0 0).toNat = b.toNat / 100 ∧
    ((bcdDigits b).getD 1 0).toNat = b.toNat / 10 % 10 ∧
    ((bcdDigits b).getD 2 0).toNat = b.toNat % 10 := by
  have hb := b.isLt
  refine ⟨?_, ?_, ?_⟩ <;> exact (BitVec.toNat_ofNat _ 8).trans (Nat.mod_eq_of_lt (by omega))

/-- Settles O26: a store of the three digits. -/
theorem bcdStoresThreeDigits : Obligations.BcdStoresThreeDigits := by
  intro s x hm
  have hphase : phase (.ldB x) s.advance = s.advance.writeAtI (bcdDigits (s.getV x)) := rfl
  have hn : bcdDigits (s.getV x) ≠ [] := List.cons_ne_nil _ _
  have hop : (encodeWord (.ldB x)).toNat = 0xF033 + x.val * 256 := wordXNN_F_toNat x 0x33
  refine ⟨fun hlo hhi => ?_, exec_store_font hphase hop hn, fun hhi => ?_⟩
  · obtain ⟨t, hexec, hread, hpc, hkeeps⟩ := exec_store hphase hm hn hlo hhi
    rw [bcdDigits_length] at hread
    obtain ⟨hundreds, tens, ones⟩ := bcdDigits_toNat (s.getV x)
    exact ⟨t, hexec, hread 0 (by decide) ▸ hundreds, hread 1 (by decide) ▸ tens,
      hread 2 (by decide) ▸ ones, hpc, hkeeps⟩
  · exact exec_store_range hphase hop hn (by omega) (Nat.lt_succ_of_le hhi)

/-- Settles O27: a store of the registers V0..Vx. -/
theorem storeWritesRegisterRange : Obligations.StoreWritesRegisterRange := by
  intro s x hm
  have hphase : phase (.ldMemV x) s.advance = s.advance.writeAtI (s.regsUpTo x) := rfl
  have hn := regsUpTo_ne_nil s x
  have hlen := regsUpTo_length s x
  have hop : (encodeWord (.ldMemV x)).toNat = 0xF055 + x.val * 256 := wordXNN_F_toNat x 0x55
  refine ⟨fun hlo hhi => ?_, exec_store_font hphase hop hn, fun hhi => ?_⟩
  · obtain ⟨t, hexec, hread, hpc, hkeeps⟩ := exec_store hphase hm hn hlo (by omega)
    rw [hlen] at hread hkeeps
    exact ⟨t, hexec, fun k hk => (hread k (Nat.lt_succ_of_le hk)).trans (regsUpTo_getD s x hk), hpc,
      hkeeps⟩
  · have hx := x.isLt
    exact exec_store_range hphase hop hn (by omega) (by omega)

/-! ### The load -/

/-- Register `r` after the bytes of MEM from I on are loaded into V0..Vx (R155). -/
theorem getV_loadRegs_bytesAtI (s : State) (x r : Reg) :
    (s.loadRegs (s.bytesAtI (x.val + 1))).getV r =
      if r.val ≤ x.val then s.mem.read (s.i.toNat + r.val) else s.getV r := by
  rw [State.getV_loadRegs]
  split <;> simp [*]

/-- Settles O28: the load where the run lies in MEM, and otherwise the fault of its phase. -/
theorem loadReadsRegisterRange : Obligations.LoadReadsRegisterRange := by
  intro s x
  constructor
  · intro h
    refine ⟨_, exec_eq_next (phase_ldVMem_ok (s := s.advance) h), fun k hk => ?_, rfl,
      keepsAllButV_of_v_pc_draws fun r hr => ?_⟩
    · exact (getV_loadRegs_bytesAtI s.advance x k).trans (if_pos hk)
    · have hgt : ¬ r.val ≤ x.val := by simpa using hr
      exact (getV_loadRegs_bytesAtI s.advance x r).trans (if_neg hgt)
  · intro h
    exact exec_eq_faultedAs (phase_ldVMem_error (s := s.advance) h) (wordXNN_F_toNat x 0x65) rfl

end Sys2Proof.Machine

/-! ## The framebuffer (43_display.md) -/

namespace Sys2Proof.Machine

/-- What an instruction that writes FB and DIRTY leaves: pc, V, FB and DIRTY may differ, and of V only
`ws`. -/
theorem keepsAllButScreen_of_v_pc_fb_dirty {s : State} {v : Vector Byte 16} {pc : Word}
    {fb : Framebuffer} {dirty : Bool} {ws : List Reg}
    (h : s.keepsVExcept { s with v := v, pc := pc, fb := fb, dirty := dirty } ws) :
    s.keepsAllButScreen { s with v := v, pc := pc, fb := fb, dirty := dirty } ws where
  v := h
  i := rfl
  mem _ := rfl
  stack := ⟨rfl, rfl⟩
  timers := ⟨rfl, rfl⟩
  rest := ⟨rfl, rfl⟩

/-- Settles O30: the phase writes the clear framebuffer and DIRTY, over the advance. -/
theorem clearBlanksEveryPixel : Obligations.ClearBlanksEveryPixel := by
  intro s
  exact ⟨_, exec_eq_next rfl, pixel_clear, rfl, rfl,
    keepsAllButScreen_of_v_pc_fb_dirty fun _ _ => rfl⟩

/-! ### The bits of a sprite on the screen (R172, R173) -/

/-- The bit of row `r` and column `c` lies on row `y + r` and column `x + c`, both wrapped. -/
theorem spriteBit_wrap (x y : Nat) (bytes : List Byte) {r c : Nat} (hr : r < 32) (hc : c < 8) :
    spriteBit x y bytes (wrapY (y + r)) (wrapX (x + c)) = (bytes.getD r 0).getLsbD (7 - c) := by
  have hrow : spriteRow y (wrapY (y + r)) = r := (spriteRow_eq_iff y r hr _).mpr rfl
  have hcol : spriteCol x (wrapX (x + c)) = c := (spriteCol_eq_iff x c (by omega) _).mpr rfl
  rw [spriteBit, hrow, hcol, decide_eq_true hc, Bool.true_and]

/-- A set bit on the screen comes from a row and a column of the sprite. -/
theorem exists_wrap_of_spriteBit {x y : Nat} {bytes : List Byte} {py : Fin 32} {px : Fin 64}
    (h : spriteBit x y bytes py px = true) :
    ∃ r c, r < bytes.length ∧ c < 8 ∧ py = wrapY (y + r) ∧ px = wrapX (x + c) := by
  obtain ⟨hcol, hbit⟩ : spriteCol x px < 8 ∧
      (bytes.getD (spriteRow y py) 0).getLsbD (7 - spriteCol x px) = true := by
    simpa [spriteBit] using h
  have hrow : spriteRow y py < bytes.length := by
    by_contra hout
    rw [List.getD_eq_default _ _ (Nat.le_of_not_lt hout)] at hbit
    simp at hbit
  have hrow32 : spriteRow y py < 32 := Nat.mod_lt _ (by decide)
  exact ⟨_, _, hrow, hcol, (spriteRow_eq_iff y _ hrow32 py).mp rfl,
    (spriteCol_eq_iff x _ (by omega) px).mp rfl⟩

/-- A byte that is not 0 has a set bit, counted from the left as R172 counts them. -/
theorem exists_getLsbD_of_ne_zero {b : Byte} (h : b ≠ 0) : ∃ c < 8, b.getLsbD (7 - c) = true := by
  by_contra hnone
  refine h (BitVec.eq_of_getLsbD_eq fun k hk => ?_)
  have hbit : ¬ b.getLsbD (7 - (7 - k)) = true := fun hb => hnone ⟨7 - k, by omega, hb⟩
  rw [Nat.sub_sub_self (by omega)] at hbit
  simpa using hbit

/-! ### A draw that completes -/

/-- The bit Dxyn XORs into a pixel: that of the sprite at I, placed by Vx and Vy (R171). -/
def State.drawBit (s : State) (x y : Reg) (n : Imm4) (py : Fin 32) (px : Fin 64) : Bool :=
  spriteBit (s.getV x).toNat (s.getV y).toNat (s.bytesAtI n.toNat) py px

/-- The state Dxyn leaves where its bytes lie in MEM (R171). -/
def State.afterDraw (s : State) (x y : Reg) (n : Imm4) : State :=
  let d := drawSprite s.fb (s.getV x).toNat (s.getV y).toNat (s.bytesAtI n.toNat)
  ((s.advance.setFb d.fb).setV VF (flagByte d.hit)).setDirty true

section Draw

variable {s : State} {x y : Reg} {n : Imm4}

theorem exec_drw_next (h : n = 0 ∨ s.i.toNat + n.toNat ≤ 4096) :
    exec (.drw x y n) s = .next (s.afterDraw x y n) :=
  exec_eq_next (phase_drw_ok (s := s.advance) x y (h.imp_left (congrArg BitVec.toNat)))

theorem drawBit_wrap {r c : Nat} (hr : r < n.toNat) (hc : c < 8) :
    s.drawBit x y n (wrapY ((s.getV y).toNat + r)) (wrapX ((s.getV x).toNat + c)) =
      (s.mem.read (s.i.toNat + r)).getLsbD (7 - c) := by
  have hn := n.isLt
  rw [State.drawBit, spriteBit_wrap _ _ _ (by omega) hc]
  simp [hr]

theorem exists_wrap_of_drawBit {py : Fin 32} {px : Fin 64} (h : s.drawBit x y n py px = true) :
    ∃ r c, r < n.toNat ∧ c < 8 ∧ py = wrapY ((s.getV y).toNat + r) ∧
      px = wrapX ((s.getV x).toNat + c) := by
  simpa using exists_wrap_of_spriteBit h

/-- A sprite sets a bit somewhere on the screen exactly when one of its bytes is not 0. -/
theorem exists_drawBit_iff :
    (∃ py px, s.drawBit x y n py px = true) ↔ ∃ r < n.toNat, s.mem.read (s.i.toNat + r) ≠ 0 := by
  constructor
  · rintro ⟨py, px, h⟩
    obtain ⟨r, c, hr, hc, rfl, rfl⟩ := exists_wrap_of_drawBit h
    refine ⟨r, hr, fun hzero => ?_⟩
    rw [drawBit_wrap hr hc, hzero] at h
    simp at h
  · rintro ⟨r, hr, hne⟩
    obtain ⟨c, hc, hbit⟩ := exists_getLsbD_of_ne_zero hne
    exact ⟨_, _, (drawBit_wrap hr hc).trans hbit⟩

/-- A sprite has at most 15 rows, so it does not meet itself when it wraps. -/
theorem bytesAtI_length_le (s : State) (n : Imm4) : (s.bytesAtI n.toNat).length ≤ 32 := by
  have hn := n.isLt
  rw [List.length_map, List.length_range']
  omega

/-- A draw XORs its bit into every pixel (R171, R174). -/
theorem afterDraw_pixel (s : State) (x y : Reg) (n : Imm4) (py : Fin 32) (px : Fin 64) :
    (s.afterDraw x y n).fb.pixel py px = (s.fb.pixel py px ^^ s.drawBit x y n py px) :=
  (rows_spec _ _ _ _ (bytesAtI_length_le s n)).1 py px

theorem flagByte_eq_one_iff (f : Bool) : flagByte f = 1 ↔ f = true := by
  cases f <;> decide

theorem afterDraw_getV_VF (s : State) (x y : Reg) (n : Imm4) :
    (s.afterDraw x y n).getV VF =
      flagByte (drawSprite s.fb (s.getV x).toNat (s.getV y).toNat (s.bytesAtI n.toNat)).hit := by
  simp [State.afterDraw]

theorem afterDraw_getV_of_ne {r : Reg} (h : r ≠ VF) : (s.afterDraw x y n).getV r = s.getV r := by
  simp [State.afterDraw, h]

/-- VF = 1 after a draw exactly when it turned a set pixel off (R171, R174). -/
theorem afterDraw_collides_iff (s : State) (x y : Reg) (n : Imm4) :
    (s.afterDraw x y n).getV VF = 1 ↔ ∃ (py : Fin 32) (px : Fin 64),
      s.fb.pixel py px = true ∧ (s.afterDraw x y n).fb.pixel py px = false := by
  rw [afterDraw_getV_VF, flagByte_eq_one_iff, drawSprite,
    (rows_spec _ _ _ _ (bytesAtI_length_le s n)).2]
  simp only [Bool.false_eq_true, false_or]
  refine exists₂_congr fun py px => ?_
  rw [afterDraw_pixel, and_comm]
  refine and_congr_right fun hset => ?_
  rw [hset, Bool.true_xor, Bool.not_eq_false']
  rfl

theorem afterDraw_keeps (s : State) (x y : Reg) (n : Imm4) :
    s.keepsAllButScreen (s.afterDraw x y n) [VF] :=
  keepsAllButScreen_of_v_pc_fb_dirty fun _ hr => afterDraw_getV_of_ne (List.ne_of_not_mem_cons hr)

/-- The same sprite is drawn again where the first draw's VF is no coordinate. -/
theorem drawBit_afterDraw (hx : x ≠ VF) (hy : y ≠ VF) :
    (s.afterDraw x y n).drawBit x y n = s.drawBit x y n := by
  funext py px
  rw [State.drawBit, afterDraw_getV_of_ne hx, afterDraw_getV_of_ne hy]
  rfl

/-- XORing the same bits twice gives every pixel back (R175). -/
theorem afterDraw_afterDraw_fb (hx : x ≠ VF) (hy : y ≠ VF) :
    ((s.afterDraw x y n).afterDraw x y n).fb = s.fb :=
  Framebuffer.ext_pixel fun py px => by
    rw [afterDraw_pixel, afterDraw_pixel, drawBit_afterDraw hx hy, Bool.xor_assoc, Bool.xor_self,
      Bool.xor_false]

end Draw

/-- Settles O31: the pixels of a draw that completes, and otherwise the fault of its phase. -/
theorem drawXorsSpriteWithCollision : Obligations.DrawXorsSpriteWithCollision := by
  intro s x y n
  constructor
  · intro h
    refine ⟨_, exec_drw_next h, ?_, ?_, ?_, afterDraw_collides_iff s x y n, rfl, rfl,
      afterDraw_keeps s x y n⟩
    · intro r c py px hr hc hpy hpx
      obtain rfl : py = wrapY ((s.getV y).toNat + r) := Fin.ext hpy
      obtain rfl : px = wrapX ((s.getV x).toNat + c) := Fin.ext hpx
      rw [afterDraw_pixel, drawBit_wrap hr hc]
    · intro py px hout
      have hbit : s.drawBit x y n py px = false := by
        by_contra hset
        obtain ⟨r, c, hr, hc, rfl, rfl⟩ := exists_wrap_of_drawBit (Bool.eq_true_of_not_eq_false hset)
        exact hout r c hr hc ⟨rfl, rfl⟩
      rw [afterDraw_pixel, hbit, Bool.xor_false]
    · rw [afterDraw_getV_VF]
      exact (Bool.eq_false_or_eq_true _).imp (congrArg flagByte) (congrArg flagByte)
  · intro hn hrange
    have hn0 : n.toNat ≠ 0 := fun h0 => hn (BitVec.eq_of_toNat_eq h0)
    exact exec_eq_faultedAs (phase_drw_error (s := s.advance) x y hn0 hrange) (wordXY_toNat 0xD x y n)
      rfl

/-- Settles O32: the second draw XORs the bits of the first again, so it turns off just what the first
turned on: on a clear screen, the sprite's set bits. -/
theorem drawTwiceRestoresScreen : Obligations.DrawTwiceRestoresScreen := by
  intro s x y n hmem hx hy
  have hfb := afterDraw_afterDraw_fb (s := s) (n := n) hx hy
  have hcollides : ((s.afterDraw x y n).afterDraw x y n).getV VF = 1 ↔ ∃ (py : Fin 32) (px : Fin 64),
      s.fb.pixel py px = false ∧ (s.afterDraw x y n).fb.pixel py px = true := by
    rw [afterDraw_collides_iff, hfb]
    exact exists₂_congr fun _ _ => and_comm
  refine ⟨_, _, exec_drw_next hmem, exec_drw_next hmem, hfb, hcollides, fun hclear => ?_⟩
  rw [← exists_drawBit_iff (x := x) (y := y)]
  refine hcollides.trans (exists₂_congr fun py px => ?_)
  rw [afterDraw_pixel, hclear, Bool.false_xor, and_iff_right rfl]

end Sys2Proof.Machine

/-! ## Timers and keypad (44_timers_keypad.md) -/

namespace Sys2Proof.Machine

/-! ### Key skips -/

theorem keyOf_eq_ok {b : Byte} (h : b.toNat < 16) : keyOf b = .ok ⟨b.toNat, h⟩ := dif_pos h

theorem keyOf_eq_error {b : Byte} (h : 16 ≤ b.toNat) : keyOf b = .error (.keyRange b) :=
  dif_neg (Nat.not_lt.mpr h)

section KeySkip

variable (x : Reg) {s : State}

theorem phase_skp_ok (h : (s.getV x).toNat < 16) :
    phase (.skp x) s = .ok (s.skipIf (s.getKey ⟨(s.getV x).toNat, h⟩)) := by
  simp only [phase, keyOf_eq_ok h]

theorem phase_sknp_ok (h : (s.getV x).toNat < 16) :
    phase (.sknp x) s = .ok (s.skipIf (!s.getKey ⟨(s.getV x).toNat, h⟩)) := by
  simp only [phase, keyOf_eq_ok h]

theorem phase_skp_error (h : 16 ≤ (s.getV x).toNat) :
    phase (.skp x) s = .error (.keyRange (s.getV x)) := by
  simp only [phase, keyOf_eq_error h]

theorem phase_sknp_error (h : 16 ≤ (s.getV x).toNat) :
    phase (.sknp x) s = .error (.keyRange (s.getV x)) := by
  simp only [phase, keyOf_eq_error h]

end KeySkip

/-- The key number that names no key is recorded as it is (60_exceptions.md R211). -/
theorem keyRange_addr (b : Byte) : (Fault.keyRange b).addr = low16 b.toNat :=
  (BitVec.ofNat_toNat 16 b).symm

/-- The word of a row `Exnn`, its fixed digits apart from its register. -/
theorem wordXNN_E_toNat (x : Reg) (nn : Byte) :
    (wordXNN 0xE x nn).toNat = 0xE000 + nn.toNat + x.val * 256 := by
  have he : (0xE : BitVec 4).toNat = 14 := rfl
  rw [wordXNN_toNat, he]
  omega

/-- Settles O33: with Vx below 16 a skip on the state of its key, and otherwise the fault of the key
range. -/
theorem keySkipsFollowKeypad : Obligations.KeySkipsFollowKeypad := by
  intro s x
  constructor
  · intro h
    exact ⟨exec_skip (phase_skp_ok (s := s.advance) x h) Iff.rfl,
      exec_skip (phase_sknp_ok (s := s.advance) x h) (Bool.not_eq_true' _).to_iff⟩
  · intro h
    exact ⟨exec_eq_faultedAs (phase_skp_error (s := s.advance) x h) (wordXNN_E_toNat x 0x9E)
        (keyRange_addr _),
      exec_eq_faultedAs (phase_sknp_error (s := s.advance) x h) (wordXNN_E_toNat x 0xA1)
        (keyRange_addr _)⟩

/-! ### Timers -/

/-- A next state that differs from the state before in pc, DT and ST alone. -/
theorem keepsAllButTimers_of_pc_dt_st (s : State) (pc : Word) (dt st : Byte) :
    s.keepsAllButTimers { s with pc := pc, dt := dt, st := st } where
  v _ _ := rfl
  i := rfl
  mem _ := rfl
  stack := ⟨rfl, rfl⟩
  screen := ⟨rfl, rfl⟩
  rest := ⟨rfl, rfl⟩

theorem soundActive_iff (s : State) : s.soundActive = true ↔ 0 < s.st.toNat := decide_eq_true_iff

/-- Settles O34: each phase writes one register or one timer, over the advance. -/
theorem timerTransfers : Obligations.TimerTransfers := by
  intro s x
  refine ⟨exec_setV (i := .ldVxDT x) rfl, ?_, ?_⟩
  · exact ⟨s.advance.setDT (s.getV x), exec_eq_next rfl, rfl, rfl, rfl,
      keepsAllButTimers_of_pc_dt_st s _ _ _⟩
  · exact ⟨s.advance.setST (s.getV x), exec_eq_next rfl, rfl, rfl, rfl,
      keepsAllButTimers_of_pc_dt_st s _ _ _, soundActive_iff _⟩

/-! ### The wait for a key -/

/-- In any state but RUNNING a STEP changes nothing (60_exceptions.md R232). -/
theorem fetchDecodeExecute_of_not_running {run : Instr → State → Host.Outcome State Fault Refusal}
    {s : State} (h : s.status.state ≠ .running) : fetchDecodeExecute run s = .next s := by
  rcases fetchDecodeExecute_cases run s with ⟨-, held⟩ | ⟨hrun, -⟩
  · exact held
  · exact absurd hrun h

/-- A timer counts down and stops at 0 (60_exceptions.md R236). -/
theorem countDown_toNat (b : Byte) : (countDown b).toNat = b.toNat - 1 :=
  (BitVec.toNat_ofNat _ 8).trans (Nat.mod_eq_of_lt (by have := b.isLt; omega))

theorem getKey_setKey_same (s : State) (k : Key) (d : Bool) : (s.setKey k d).getKey k = d :=
  (s.getKey_setKey k k d).trans (if_pos rfl)

/-- A key's index fits a register, so it is not reduced. -/
theorem low8_key_toNat (k : Key) : (low8 k.val).toNat = k.val :=
  (BitVec.toNat_ofNat _ 8).trans (Nat.mod_eq_of_lt (by have := k.isLt; omega))

/-- A KEY_DOWN that completes a wait (60_exceptions.md R233). -/
theorem keyDown_of_waiting {s : State} (h : s.status.state = .waitingKey) (k : Key) :
    s.keyDown k = ((s.setKey k true).setV s.status.waitX (low8 k.val)).setStatus
      { s.status with state := .running, waitX := 0 } := by
  simp only [State.keyDown, State.setKey_status, h]

/-- The state Fx0A leaves, which awaits a key for Vx (R193). -/
def State.awaitKey (s : State) (x : Reg) : State :=
  s.advance.setStatus { s.status with state := .waitingKey, waitX := x }

theorem exec_ldVxK (s : State) (x : Reg) : exec (.ldVxK x) s = .next (s.awaitKey x) :=
  exec_eq_next rfl

/-- Settles O35: the state that waits holds at a STEP, KEY_UP and TICK leave its STATUS alone, and
KEY_DOWN completes the wait. -/
theorem waitForKeyCompletesAtKeyDown : Obligations.WaitForKeyCompletesAtKeyDown := by
  intro s x
  have hwait : (s.awaitKey x).status.state = .waitingKey := rfl
  refine ⟨s.awaitKey x, exec_ldVxK s x, rfl, rfl, rfl, fun _ _ => rfl, rfl, fun _ => rfl, ⟨rfl, rfl⟩,
    ⟨rfl, rfl⟩, ⟨rfl, rfl⟩, ?step, ?keyUp, ?tick, ?keyDown⟩
  case step => exact fun r => fetchDecodeExecute_of_not_running (by simp [hwait])
  case keyUp => exact fun k => ⟨_, rfl, rfl, getKey_setKey_same _ k false⟩
  case tick => exact ⟨_, rfl, rfl, countDown_toNat s.dt, countDown_toNat s.st⟩
  case keyDown =>
    intro k
    refine ⟨_, congrArg Host.Outcome.next (keyDown_of_waiting hwait k), ?_, ?_, rfl, rfl, rfl⟩
    · exact (congrArg BitVec.toNat (State.getV_setV_same _ x _)).trans (low8_key_toNat k)
    · exact getKey_setKey_same _ k true

end Sys2Proof.Machine

/-! ## Stops and host transactions (60_exceptions.md) -/

namespace Sys2Proof.Machine

/-! ### STEP(r) where it does not run an instruction, and where it does not see its byte -/

/-- A fetch at pc ≥ 0x1000 halts (R212). -/
theorem fetchDecodeExecute_halt {run : Instr → State → Host.Outcome State Fault Refusal} {s : State}
    (hs : s.status.state = .running) (hp : 4096 ≤ s.pc.toNat) :
    fetchDecodeExecute run s = .next s.takeHalt := by
  simp only [fetchDecodeExecute, hs, fetch_halt hp]

/-- A STEP uses the meaning of the fetched instruction and of no other. -/
theorem fetchDecodeExecute_congr {run run' : Instr → State → Host.Outcome State Fault Refusal}
    {s : State} (h : ∀ i, decodeWord s.wordAtPc = .ok i → run i s = run' i s) :
    fetchDecodeExecute run s = fetchDecodeExecute run' s := by
  rcases fetchDecodeExecute_cases run s with
    ⟨hs, held⟩ | ⟨hs, ⟨hp, halt⟩ | ⟨hp, fault⟩ | ⟨hp, ⟨i, hd, runs⟩ | ⟨hd, skip⟩⟩⟩
  · exact held.trans (fetchDecodeExecute_of_not_running hs).symm
  · exact halt.trans (fetchDecodeExecute_halt hs hp).symm
  · exact fault.trans (fetchDecodeExecute_lastByte hs hp).symm
  · exact (runs.trans (h i hd)).trans (fetchDecodeExecute_ok hs hp hd).symm
  · exact skip.trans (fetchDecodeExecute_unrecognized hs hp hd).symm

/-- Settles O24: the fetched instruction is no Cxnn, and no other sees the byte. -/
theorem randomByteReachesOnlyRnd : Obligations.RandomByteReachesOnlyRnd := by
  constructor
  · intro s r r' hword
    refine fetchDecodeExecute_congr fun i hd => ?_
    have hi : ∀ x nn, i ≠ .rnd x nn := fun x nn e => hword x nn (e ▸ hd)
    rw [execWith_eq_exec hi, execWith_eq_exec hi]
  · exact fun s => ⟨_, step_eq_stepWith s⟩

/-- Settles O8: the state the halt leaves. -/
theorem fetchBeyondMemoryHalts : Obligations.FetchBeyondMemoryHalts := by
  intro s hs hp
  exact ⟨s.takeHalt, fetchDecodeExecute_halt hs hp, rfl, rfl, rfl, rfl, rfl, rfl, rfl⟩

/-- Settles O10: KEY_UP, TICK and PRESENT_ACK do not write STATUS, and a STEP is ignored. -/
theorem heldAndStoppedMachinesIgnoreStep : Obligations.HeldAndStoppedMachinesIgnoreStep := by
  constructor
  · intro s r hs
    exact ⟨fetchDecodeExecute_of_not_running hs, fetchDecodeExecute_of_not_running hs⟩
  · intro s t a hwait ha hends
    cases a with
    | load image => exact .inr (.inr ⟨image, rfl⟩)
    | step r =>
      have held : stepWith r s = .next s := fetchDecodeExecute_of_not_running (by simp [hwait])
      cases held.symm.trans ha
      exact absurd hwait hends
    | keyDown k => exact .inl ⟨k, rfl⟩
    | quit => exact .inr (.inl rfl)
    | tick | keyUp | presentAck => cases ha; exact absurd hwait hends

/-! ### KEY_DOWN, KEY_UP, TICK, PRESENT_ACK and QUIT -/

/-- A KEY_DOWN that completes no wait only marks its key (R233). -/
theorem keyDown_of_not_waiting {s : State} (h : s.status.state ≠ .waitingKey) (k : Key) :
    s.keyDown k = s.setKey k true := by
  cases hst : s.status.state
  case waitingKey => exact absurd hst h
  all_goals simp only [State.keyDown, State.setKey_status, hst]

/-- Settles O40: KEY_DOWN while a key is awaited, and in any other state. -/
theorem keyDownMarksAndCompletes : Obligations.KeyDownMarksAndCompletes := by
  intro s k
  refine ⟨s.keyDown k, rfl, ?_⟩
  by_cases hwait : s.status.state = .waitingKey
  · rw [keyDown_of_waiting hwait]
    refine ⟨fun j => s.getKey_setKey k j true, fun _ => ⟨?_, ?_, rfl⟩, absurd hwait, rfl, rfl,
      fun _ => rfl, ⟨rfl, rfl⟩, ⟨rfl, rfl⟩, ⟨rfl, rfl⟩⟩
    · exact (congrArg BitVec.toNat (State.getV_setV_same _ _ _)).trans (low8_key_toNat k)
    · exact keepsVExcept_setV s _ _
  · rw [keyDown_of_not_waiting hwait]
    exact ⟨fun j => s.getKey_setKey k j true, (absurd · hwait), fun _ => ⟨fun _ _ => rfl, rfl⟩, rfl,
      rfl, fun _ => rfl, ⟨rfl, rfl⟩, ⟨rfl, rfl⟩, ⟨rfl, rfl⟩⟩

/-- A timer floored at 0, as R236 writes it. -/
theorem countDown_toNat_eq_ite (b : Byte) :
    (countDown b).toNat = if 0 < b.toNat then b.toNat - 1 else 0 := by
  rw [countDown_toNat]
  split <;> omega

/-- Settles O41: each of the three writes its own items. -/
theorem keyUpTickAndPresentAck : Obligations.KeyUpTickAndPresentAck := by
  intro s k
  refine ⟨⟨s.keyUp k, rfl, rfl, fun j => s.getKey_setKey k j false⟩, ⟨s.tick, rfl, rfl, ?_, ?_⟩,
    ⟨s.presentAck, rfl, rfl⟩⟩
  · exact countDown_toNat_eq_ite s.dt
  · exact countDown_toNat_eq_ite s.st

/-- Settles O42: QUIT is a stop, which writes STATUS alone. -/
theorem quitRecordsStop : Obligations.QuitRecordsStop := by
  intro s
  exact ⟨s.quit, rfl, rfl, rfl, rfl, rfl, rfl, rfl, rfl⟩

/-! ### Once stopped (R215, R219) -/

/-- The items of the state that no transaction but LOAD writes once the run has ended. -/
def State.program (s : State) :
    Vector Byte 16 × Word × Word × Vector Word 16 × Fin 17 × Memory × Framebuffer :=
  (s.v, s.i, s.pc, s.stack, s.sp, s.mem, s.fb)

theorem not_running_of_stopped {s : State} (h : s.stopped) : s.status.state ≠ .running := by
  rcases h with h | h | h <;> simp [h]

theorem not_waiting_of_stopped {s : State} (h : s.stopped) : s.status.state ≠ .waitingKey := by
  rcases h with h | h | h <;> simp [h]

theorem transact_of_stopped {a : Transaction} {s : State} (hs : s.stopped)
    (ha : ∀ image, a ≠ .load image) :
    ∃ t, transact a s = .next t ∧ t.stopped ∧ t.program = s.program := by
  cases a with
  | load image => exact absurd rfl (ha image)
  | step r => exact ⟨s, fetchDecodeExecute_of_not_running (not_running_of_stopped hs), hs, rfl⟩
  | keyDown k =>
    have hkey := keyDown_of_not_waiting (not_waiting_of_stopped hs) k
    exact ⟨_, congrArg Host.Outcome.next hkey, hs, rfl⟩
  | tick | keyUp | presentAck => exact ⟨_, rfl, hs, rfl⟩
  | quit => exact ⟨_, rfl, .inr (.inr rfl), rfl⟩

theorem runTransactions_cons {a : Transaction} {s t : State} (h : transact a s = .next t)
    (as : List Transaction) : runTransactions (a :: as) s = runTransactions as t := by
  rw [runTransactions, h]

theorem runTransactions_of_stopped {ts : List Transaction} {s : State} (hs : s.stopped)
    (hts : ∀ image, .load image ∉ ts) :
    ∃ t, runTransactions ts s = .next t ∧ t.stopped ∧ t.program = s.program := by
  induction ts generalizing s with
  | nil => exact ⟨s, rfl, hs, rfl⟩
  | cons a as ih =>
    have ha : ∀ image, a ≠ .load image := fun image e => hts image (e ▸ List.mem_cons_self)
    have has : ∀ image, .load image ∉ as := fun image h => hts image (List.mem_cons_of_mem a h)
    obtain ⟨u, hu, hstop, hkeep⟩ := transact_of_stopped hs ha
    obtain ⟨t, ht, hstop', hkeep'⟩ := ih hstop has
    exact ⟨t, (runTransactions_cons hu as).trans ht, hstop', hkeep'.trans hkeep⟩

/-- Settles O39: each transaction but LOAD keeps a stopped machine stopped and its program as it was. -/
theorem onlyLoadLeavesStoppedStates : Obligations.OnlyLoadLeavesStoppedStates := by
  intro ts s hs hts
  obtain ⟨t, ht, hstop, hkeep⟩ := runTransactions_of_stopped hs hts
  exact ⟨t, ht, hstop, by simpa [State.program] using hkeep⟩

/-! ### A STEP that ends FAULTED (R211, R214) -/

/-- No execute phase that completes writes FAULTED. -/
theorem Effect.not_faulted {i : Instr} {s t : State} (h : Effect i s t) (hs : ¬ s.faulted) :
    ¬ t.faulted := by
  cases h with
  | wait x => exact nofun
  | _ => exact hs

/-- An instruction that ends FAULTED has taken the fault its phase raised. -/
theorem execWith_faulted {r : Byte} {i : Instr} {s t : State} (hs : ¬ s.faulted)
    (h : execWith r i s = .next t) (ht : t.faulted) :
    ∃ f, phase i s.advance = .error f ∧ t = s.takeFault (encodeWord i) f := by
  by_cases hi : ∃ x nn, i = .rnd x nn
  · obtain ⟨x, nn, rfl⟩ := hi
    cases h
    exact absurd ht hs
  · rw [execWith_eq_exec fun x nn e => hi ⟨x, nn, e⟩] at h
    rcases exec_cases h with hok | hfault
    · exact absurd ht ((phase_effect hok).not_faulted hs)
    · exact hfault

/-- The two ways a STEP(r) ends FAULTED: the fetch at 0xFFF, and the fault of an instruction. -/
theorem stepWith_faulted {r : Byte} {s t : State} (hs : ¬ s.faulted) (h : stepWith r s = .next t)
    (ht : t.faulted) :
    (s.pc.toNat = 0xFFF ∧ t = s.takeFault 0 (.memRange 0x1000)) ∨
    (s.pc.toNat < 0xFFF ∧
      ∃ i f, phase i s.advance = .error f ∧ t = s.takeFault s.wordAtPc f) := by
  rcases fetchDecodeExecute_cases (execWith r) s with
    ⟨-, held⟩ | ⟨-, ⟨-, halt⟩ | ⟨hp, fault⟩ | ⟨hp, ⟨i, hd, run⟩ | ⟨-, skip⟩⟩⟩
  · cases held.symm.trans h
    exact absurd ht hs
  · cases halt.symm.trans h
    cases ht
  · cases fault.symm.trans h
    exact .inl ⟨hp, rfl⟩
  · obtain ⟨f, hphase, rfl⟩ := execWith_faulted hs (run.symm.trans h) ht
    rw [recognizedWordIsItsInstructionsWord _ _ hd]
    exact .inr ⟨hp, i, f, hphase, rfl⟩
  · cases skip.symm.trans h
    exact absurd ht hs

/-- The row of the table of R211 that a fault of a STEP from `s` meets: its cause and fault_addr. -/
def State.meetsFaultTable (s : State) (c : Cause) (addr : Nat) : Prop :=
  (c = .stackOverflow ∧ c.code = 2 ∧ s.sp.val = 16 ∧ addr = 16) ∨
  (c = .stackUnderflow ∧ c.code = 3 ∧ s.sp.val = 0 ∧ addr = 0) ∨
  (c = .memRange ∧ c.code = 4 ∧
    (s.pc.toNat = 0xFFF ∧ addr = 0x1000 ∨ s.pc.toNat < 0xFFF ∧ addr = max s.i.toNat 0x1000)) ∨
  (c = .fontWrite ∧ c.code = 5 ∧ s.i.toNat < 0x50 ∧ addr = s.i.toNat) ∨
  (c = .keyRange ∧ c.code = 6 ∧ ∃ x, 16 ≤ (s.getV x).toNat ∧ addr = (s.getV x).toNat)

/-- The larger of I and 0x1000 fits fault_addr, so it is not reduced. -/
theorem low16_toNat_max (w : Word) : (low16 (max w.toNat 4096)).toNat = max w.toNat 4096 :=
  (BitVec.toNat_ofNat _ 16).trans (Nat.mod_eq_of_lt (by have := w.isLt; omega))

theorem phase_fault_meetsFaultTable {i : Instr} {s : State} {f : Fault} (hp : s.pc.toNat < 0xFFF)
    (h : phase i s.advance = .error f) : s.meetsFaultTable f.cause f.addr.toNat := by
  rcases phase_faults h with ⟨rfl, hsp⟩ | ⟨rfl, hsp⟩ | rfl | ⟨rfl, hi⟩ | ⟨x, rfl, hx⟩
  · exact .inl ⟨rfl, rfl, hsp, rfl⟩
  · exact .inr (.inl ⟨rfl, rfl, hsp, rfl⟩)
  · exact .inr (.inr (.inl ⟨rfl, rfl, .inr ⟨hp, low16_toNat_max s.i⟩⟩))
  · have haddr : low16 s.i.toNat = s.i := BitVec.ofNat_toNat 16 s.i
    exact .inr (.inr (.inr (.inl ⟨rfl, rfl, hi, congrArg BitVec.toNat haddr⟩)))
  · exact .inr (.inr (.inr (.inr ⟨rfl, rfl, x, hx, zext16_toNat (s.getV x)⟩)))

theorem wordAtPc_toNat (s : State) : s.wordAtPc.toNat =
    (s.mem.read s.pc.toNat).toNat * 256 + (s.mem.read (s.pc.toNat + 1)).toNat := by
  have hhi := (s.mem.read s.pc.toNat).isLt
  have hlo := (s.mem.read (s.pc.toNat + 1)).isLt
  exact (BitVec.toNat_ofNat _ 16).trans (Nat.mod_eq_of_lt (by omega))

theorem not_faulted_of_running {s : State} (h : s.status.state = .running) : ¬ s.faulted := by
  simp [h]

/-- Settles O36: the two ways to end FAULTED, each a taken fault with its row of the table. -/
theorem faultsArePrecise : Obligations.FaultsArePrecise := by
  intro s t hs hstep ht
  rw [step_eq_stepWith] at hstep
  rcases stepWith_faulted (not_faulted_of_running hs) hstep ht with
    ⟨hp, rfl⟩ | ⟨hp, i, f, hphase, rfl⟩
  · exact ⟨_, _, _, takeFault_eq s 0 _, (if_neg (by omega)).symm,
      .inr (.inr (.inl ⟨rfl, rfl, .inl ⟨hp, rfl⟩⟩))⟩
  · exact ⟨_, _, _, takeFault_eq s _ f, (wordAtPc_toNat s).trans (if_pos hp).symm,
      phase_fault_meetsFaultTable hp hphase⟩

/-! ### Reporting a fault (R215) -/

theorem stepWith_faulted_takeFault {r : Byte} {s t : State} (hs : ¬ s.faulted)
    (h : stepWith r s = .next t) (ht : t.faulted) : ∃ op f, t = s.takeFault op f := by
  rcases stepWith_faulted hs h ht with ⟨-, rfl⟩ | ⟨-, -, f, -, rfl⟩
  · exact ⟨_, _, rfl⟩
  · exact ⟨_, f, rfl⟩

/-- Settles O38: a STEP that ends FAULTED has taken a fault, and reporting reads it back. -/
theorem reportStepReportsFaults : Obligations.ReportStepReportsFaults := by
  intro s t hs hstep
  have hreport : reportStep s = reported (.next t) := congrArg reported hstep
  rw [hreport]
  refine ⟨⟨?_, fun ht => ?_⟩, reported_of_not_faulted⟩
  · rintro ⟨f, hf, -⟩
    by_contra hn
    cases (reported_of_not_faulted hn).symm.trans hf
  · rw [step_eq_stepWith] at hstep
    obtain ⟨op, f, rfl⟩ := stepWith_faulted_takeFault (not_faulted_of_running hs) hstep ht
    obtain ⟨g, hg, hcause, haddr⟩ := fault?_takeFault s op f
    exact ⟨g, reported_of_fault hg, hcause.symm, haddr.symm⟩

theorem loadFailed_fault? (u : State) (d : Nat) :
    (State.loadFailed u d).fault? = some .loadTooLarge := rfl

theorem loaded_not_faulted (image : List Byte) (d : Nat) : ¬ (State.loaded image d).faulted := nofun

theorem keyDown_not_faulted {s : State} (hs : ¬ s.faulted) (k : Key) : ¬ (s.keyDown k).faulted := by
  by_cases hwait : s.status.state = .waitingKey
  · rw [keyDown_of_waiting hwait]
    exact nofun
  · rw [keyDown_of_not_waiting hwait]
    exact hs

/-- A transaction that takes the machine to FAULTED leaves a state that records its fault. -/
theorem transact_faulted_fault? {a : Transaction} {s t : State} (hs : ¬ s.faulted)
    (h : transact a s = .next t) (ht : t.faulted) : ∃ f, t.fault? = some f := by
  cases a with
  | load image =>
    cases h
    rcases Nat.lt_or_ge 3584 image.length with hlen | hlen
    · rw [load_of_too_large hlen]
      exact ⟨_, loadFailed_fault? _ _⟩
    · rw [load_of_fits hlen] at ht
      exact absurd ht (loaded_not_faulted image _)
  | step r =>
    obtain ⟨op, f, rfl⟩ := stepWith_faulted_takeFault hs h ht
    exact (fault?_takeFault s op f).imp fun _ => And.left
  | keyDown k => cases h; exact absurd ht (keyDown_not_faulted hs k)
  | quit => cases h; cases ht
  | tick | keyUp | presentAck => cases h; exact absurd ht hs

theorem transact_next (a : Transaction) (s : State) : ∃ t, transact a s = .next t := by
  cases a with
  | step r => exact stepWith_next r s
  | _ => exact ⟨_, rfl⟩

/-- All that a reported transaction of a machine not FAULTED can do. -/
theorem reportTransact_cases (a : Transaction) {s : State} (hs : ¬ s.faulted) :
    ∃ t, transact a s = .next t ∧
      ((¬ t.faulted ∧ reportTransact a s = .next t) ∨
       (t.faulted ∧ ∃ f, reportTransact a s = .fault f)) := by
  obtain ⟨t, ha⟩ := transact_next a s
  have hreport : reportTransact a s = reported (.next t) := congrArg reported ha
  rw [hreport]
  refine ⟨t, ha, ?_⟩
  by_cases ht : t.faulted
  · obtain ⟨f, hf⟩ := transact_faulted_fault? hs ha ht
    exact .inr ⟨ht, f, reported_of_fault hf⟩
  · exact .inl ⟨ht, reported_of_not_faulted ht⟩

/-! ### Runs without a fault (R215) -/

theorem runsSafely_cons_iff {a : Transaction} {s t : State} (h : transact a s = .next t)
    (as : List Transaction) : runsSafely (a :: as) s ↔ ¬ s.faulted ∧ runsSafely as t := by
  simp [runsSafely, h]

theorem not_faulted_of_runsSafely {ts : List Transaction} {s : State} (h : runsSafely ts s) :
    ¬ s.faulted := by
  cases ts with
  | nil => exact h
  | cons a as => exact h.1

/-- A run is safe exactly when each of its beginnings, the empty one included, completes in a machine
that is not FAULTED. -/
theorem runsSafely_iff_take (ts : List Transaction) (s : State) : runsSafely ts s ↔
    ∀ k ≤ ts.length, ∃ t, runTransactions (ts.take k) s = .next t ∧ ¬ t.faulted := by
  induction ts generalizing s with
  | nil => simp [runsSafely, runTransactions]
  | cons a as ih =>
    obtain ⟨u, ha⟩ := transact_next a s
    rw [runsSafely_cons_iff ha, ih u]
    constructor
    · rintro ⟨hs, h⟩ (_ | k) hk
      · exact ⟨s, rfl, hs⟩
      · rw [List.take_succ_cons, runTransactions_cons ha]
        exact h k (Nat.le_of_succ_le_succ hk)
    · intro h
      constructor
      · obtain ⟨t, ht, hf⟩ := h 0 (Nat.zero_le _)
        cases ht
        exact hf
      · intro k hk
        have hk' := h (k + 1) (Nat.succ_le_succ hk)
        rwa [List.take_succ_cons, runTransactions_cons ha] at hk'

/-- A run is safe and its reporting run completes, or it is not safe and its reporting run answers a
fault: that of the first transaction that leaves the machine FAULTED. -/
theorem runsSafely_or_reports (ts : List Transaction) {s : State} (hs : ¬ s.faulted) :
    (runsSafely ts s ∧ ∃ t, reportTransactions ts s = .next t) ∨
    (¬ runsSafely ts s ∧ ∃ f, reportTransactions ts s = .fault f) := by
  induction ts generalizing s with
  | nil => exact .inl ⟨hs, s, rfl⟩
  | cons a as ih =>
    obtain ⟨u, ha, ⟨hu, hr⟩ | ⟨hu, f, hr⟩⟩ := reportTransact_cases a hs
    · have hsafe : runsSafely (a :: as) s ↔ runsSafely as u :=
        (runsSafely_cons_iff ha as).trans (and_iff_right hs)
      have hreport : reportTransactions (a :: as) s = reportTransactions as u := by
        rw [reportTransactions, hr]
      rw [hsafe, hreport]
      exact ih hu
    · refine .inr ⟨fun h => ?_, f, by rw [reportTransactions, hr]⟩
      exact not_faulted_of_runsSafely ((runsSafely_cons_iff ha as).mp h).2 hu

/-- Settles O57: safety is that of every beginning of the run, and it decides which of its two ways the
reporting run ends. -/
theorem safeRunsAreTheRunsThatReportNoFault : Obligations.SafeRunsAreTheRunsThatReportNoFault := by
  intro ts s hs
  refine ⟨runsSafely_iff_take ts s, ?_⟩
  rcases runsSafely_or_reports ts hs with ⟨hsafe, t, hr⟩ | ⟨hsafe, f, hr⟩
  · simp [hsafe, hr]
  · simp [hsafe, hr]

end Sys2Proof.Machine

/-! ## The rejected LOAD (70_reset_and_hazards.md R251) -/

namespace Sys2Proof.Machine

theorem loadFailed_not_running (u : State) (d : Nat) :
    (State.loadFailed u d).status.state ≠ .running := nofun

/-- Settles O45: a too long image leaves the failed load's state, whatever its free items are; it is
FAULTED, hence not running, and so no STEP gets past the run-state test. -/
theorem loadRejectsTooLargeImage : Obligations.LoadRejectsTooLargeImage := by
  intro image s hlen
  have hload : transact (.load image) s =
      .next (State.loadFailed (Config.unspecified s.draws) (s.draws + 1)) :=
    congrArg Host.Outcome.next (load_of_too_large hlen s)
  have hstop := loadFailed_not_running (Config.unspecified s.draws) (s.draws + 1)
  exact ⟨_, hload, rfl, rfl, rfl, fetchDecodeExecute_of_not_running hstop,
    fun _ => fetchDecodeExecute_of_not_running hstop⟩

end Sys2Proof.Machine
